-- ==== Sys2Proof/Word.lean ====
section
/-! DEFINITION. The word types of the block: the 32-bit hardware word (R9, R90), the 8-bit channel value (R9) and the
64-bit reference command word (R110). Bit 0 is the least significant bit (R9, decision D11). -/

namespace Sys2Proof

/-- An 8-bit channel value, 0..255 (R9). -/
abbrev Byte := BitVec 8

/-- The hardware word, an unsigned 32-bit value (R9, R90). -/
abbrev Word := BitVec 32

/-- The reference command word `CMD64` (R110). -/
abbrev CmdWord := BitVec 64

end Sys2Proof
end

