-- ==== Sys2Proof/Syntax.lean ====
section
/-! DEFINITION. The host command as R109's tagged record: one constructor for each of the twelve rows of R111
(spec/opcode_table.json). Coordinates and the operand n are mathematical integers (R9), channel values are 8-bit. -/

namespace Sys2Proof

/-- A host command (R108, R109). -/
inductive Instr where
  /-- `SetPixel(x, y, r, g, b)`, SETPIXEL (R150) -/
  | setPixel (x y : Int) (r g b : Byte)
  /-- `Fill(r, g, b)`, FILL (R155) -/
  | fill (r g b : Byte)
  /-- `Clear()`, CLEAR (R157) -/
  | clear
  /-- `UpdateScreen()`, UPDATESCREEN (R180, R192) -/
  | updateScreen
  /-- `SetPWMBits(n)`, SETPWMBITS (R210) -/
  | setPwmBits (n : Int)
  /-- `IncrementBrightness()`, INCBRIGHT (R213) -/
  | incBright
  /-- `DecrementBrightness()`, DECBRIGHT (R214) -/
  | decBright
  /-- `GetInput()`, GETINPUT (R216) -/
  | getInput
  /-- `width()`, GETWIDTH (R158) -/
  | getWidth
  /-- `height()`, GETHEIGHT (R159) -/
  | getHeight
  /-- `Start()`, START (R246) -/
  | start
  /-- `Stop()`, STOP (R248) -/
  | stop
deriving DecidableEq, Repr

end Sys2Proof
end

