-- ==== Sys2Proof/WellFormed.lean ====
section
/-! DEFINITION. Which host commands the reference command word can spell: x, y and n are signed 16-bit there (R9, R110). -/

namespace Sys2Proof

/-- The integers a signed 16-bit field holds, -32768..32767 (R112). -/
def fitsSigned16 (v : Int) : Bool := decide (-32768 ≤ v) && decide (v ≤ 32767)

/-- A command whose operands fit their fields of `CMD64` (R110). The meanings of the commands do not need it: they are
stated on the record for all integers (R109). -/
def Instr.wf : Instr → Bool
  | .setPixel x y _ _ _ => fitsSigned16 x && fitsSigned16 y
  | .fill _ _ _ => true
  | .clear => true
  | .updateScreen => true
  | .setPwmBits n => fitsSigned16 n
  | .incBright => true
  | .decBright => true
  | .getInput => true
  | .getWidth => true
  | .getHeight => true
  | .start => true
  | .stop => true

end Sys2Proof
end

