-- ==== Sys2Proof/Decode.lean ====
section
/-! DEFINITION. The decoder of the reference command word (R110 to R113), total on all 64-bit words and rejecting by name,
and after it the encoder, written from the same tables. -/

namespace Sys2Proof

/-- The twelve operation codes of R111. -/
inductive Opcode where
  | setPixel | fill | clear | updateScreen | setPwmBits | incBright
  | decBright | getInput | getWidth | getHeight | start | stop
deriving DecidableEq, Repr

/-- Why a word spells no command (R113 (a)). All three answer `ILLEGAL`. -/
inductive Reject where
  /-- `op` is 0x0, 0xD, 0xE or 0xF -/
  | noSuchOp
  /-- the field `z` is not 0 -/
  | zNotZero
  /-- a field the command does not use is not 0 -/
  | unusedNotZero
deriving DecidableEq, Repr

/-- What the decoder answers: a command, or the reason there is none. -/
inductive Decoded where
  | ok (i : Instr)
  | reject (why : Reject)
deriving DecidableEq, Repr

/-- The rows of R111, in its order. -/
def Opcode.all : List Opcode :=
  [.setPixel, .fill, .clear, .updateScreen, .setPwmBits, .incBright,
   .decBright, .getInput, .getWidth, .getHeight, .start, .stop]

/-- The `op` column of R111. -/
def Opcode.code : Opcode → BitVec 4
  | .setPixel => 0x1#4
  | .fill => 0x2#4
  | .clear => 0x3#4
  | .updateScreen => 0x4#4
  | .setPwmBits => 0x5#4
  | .incBright => 0x6#4
  | .decBright => 0x7#4
  | .getInput => 0x8#4
  | .getWidth => 0x9#4
  | .getHeight => 0xA#4
  | .start => 0xB#4
  | .stop => 0xC#4

/-- The `match` column of R111. -/
def Opcode.matchBits : Opcode → CmdWord
  | .setPixel => 0x1000000000000000#64
  | .fill => 0x2000000000000000#64
  | .clear => 0x3000000000000000#64
  | .updateScreen => 0x4000000000000000#64
  | .setPwmBits => 0x5000000000000000#64
  | .incBright => 0x6000000000000000#64
  | .decBright => 0x7000000000000000#64
  | .getInput => 0x8000000000000000#64
  | .getWidth => 0x9000000000000000#64
  | .getHeight => 0xA000000000000000#64
  | .start => 0xB000000000000000#64
  | .stop => 0xC000000000000000#64

/-- The `mask` column of R111. -/
def Opcode.mask : Opcode → CmdWord
  | .setPixel => 0xFF00000000000000#64
  | .fill => 0xFFFFFFFFFF000000#64
  | .clear => 0xFFFFFFFFFFFFFFFF#64
  | .updateScreen => 0xFFFFFFFFFFFFFFFF#64
  | .setPwmBits => 0xFF0000FFFFFFFFFF#64
  | .incBright => 0xFFFFFFFFFFFFFFFF#64
  | .decBright => 0xFFFFFFFFFFFFFFFF#64
  | .getInput => 0xFFFFFFFFFFFFFFFF#64
  | .getWidth => 0xFFFFFFFFFFFFFFFF#64
  | .getHeight => 0xFFFFFFFFFFFFFFFF#64
  | .start => 0xFFFFFFFFFFFFFFFF#64
  | .stop => 0xFFFFFFFFFFFFFFFF#64

/-- The command whose code a 4-bit `op` field holds, if any (R111, R113 (a)). -/
def Opcode.ofCode (c : BitVec 4) : Option Opcode :=
  match c.toNat with
  | 1 => some .setPixel
  | 2 => some .fill
  | 3 => some .clear
  | 4 => some .updateScreen
  | 5 => some .setPwmBits
  | 6 => some .incBright
  | 7 => some .decBright
  | 8 => some .getInput
  | 9 => some .getWidth
  | 10 => some .getHeight
  | 11 => some .start
  | 12 => some .stop
  | _ => none

/-- The fields of `CMD64` (R110). -/
def CmdWord.op (cw : CmdWord) : BitVec 4 := cw.extractLsb' 60 4
def CmdWord.z (cw : CmdWord) : BitVec 4 := cw.extractLsb' 56 4
def CmdWord.xf (cw : CmdWord) : BitVec 16 := cw.extractLsb' 40 16
def CmdWord.yf (cw : CmdWord) : BitVec 16 := cw.extractLsb' 24 16
def CmdWord.rf (cw : CmdWord) : Byte := cw.extractLsb' 16 8
def CmdWord.gf (cw : CmdWord) : Byte := cw.extractLsb' 8 8
def CmdWord.bf (cw : CmdWord) : Byte := cw.extractLsb' 0 8

/-- Operand assembly (R112): x, y and n sign-extend, channel values do not; nothing is scaled or shifted. -/
def assemble (o : Opcode) (cw : CmdWord) : Instr :=
  match o with
  | .setPixel => .setPixel (CmdWord.xf cw).toInt (CmdWord.yf cw).toInt (CmdWord.rf cw) (CmdWord.gf cw) (CmdWord.bf cw)
  | .fill => .fill (CmdWord.rf cw) (CmdWord.gf cw) (CmdWord.bf cw)
  | .clear => .clear
  | .updateScreen => .updateScreen
  | .setPwmBits => .setPwmBits (CmdWord.xf cw).toInt
  | .incBright => .incBright
  | .decBright => .decBright
  | .getInput => .getInput
  | .getWidth => .getWidth
  | .getHeight => .getHeight
  | .start => .start
  | .stop => .stop

/-- The decoder (R111, R113): the `op` field selects the row, and the word must meet the row's mask and match. -/
def decode (cw : CmdWord) : Decoded :=
  match Opcode.ofCode (CmdWord.op cw) with
  | none => .reject .noSuchOp
  | some o =>
    if cw &&& o.mask = o.matchBits then .ok (assemble o cw)
    else if CmdWord.z cw = 0#4 then .reject .unusedNotZero
    else .reject .zNotZero

/-- A word built from its fields, most significant first (R110); `z` is 0. -/
def packFields (op : BitVec 4) (xf yf : BitVec 16) (rf gf bf : Byte) : CmdWord :=
  op ++ 0#4 ++ xf ++ yf ++ rf ++ gf ++ bf

/-- The operation code of a command (R111). -/
def Instr.opcode : Instr → Opcode
  | .setPixel _ _ _ _ _ => .setPixel
  | .fill _ _ _ => .fill
  | .clear => .clear
  | .updateScreen => .updateScreen
  | .setPwmBits _ => .setPwmBits
  | .incBright => .incBright
  | .decBright => .decBright
  | .getInput => .getInput
  | .getWidth => .getWidth
  | .getHeight => .getHeight
  | .start => .start
  | .stop => .stop

/-- The encoder: the reference command word of a command; a field the command does not use is 0 (R110, R111). -/
def encode (i : Instr) : CmdWord :=
  match i with
  | .setPixel x y r g b => packFields i.opcode.code (BitVec.ofInt 16 x) (BitVec.ofInt 16 y) r g b
  | .fill r g b => packFields i.opcode.code 0#16 0#16 r g b
  | .clear => packFields i.opcode.code 0#16 0#16 0#8 0#8 0#8
  | .updateScreen => packFields i.opcode.code 0#16 0#16 0#8 0#8 0#8
  | .setPwmBits n => packFields i.opcode.code (BitVec.ofInt 16 n) 0#16 0#8 0#8 0#8
  | .incBright => packFields i.opcode.code 0#16 0#16 0#8 0#8 0#8
  | .decBright => packFields i.opcode.code 0#16 0#16 0#8 0#8 0#8
  | .getInput => packFields i.opcode.code 0#16 0#16 0#8 0#8 0#8
  | .getWidth => packFields i.opcode.code 0#16 0#16 0#8 0#8 0#8
  | .getHeight => packFields i.opcode.code 0#16 0#16 0#8 0#8 0#8
  | .start => packFields i.opcode.code 0#16 0#16 0#8 0#8 0#8
  | .stop => packFields i.opcode.code 0#16 0#16 0#8 0#8 0#8

/-- The 64-bit command word with the bits of a table word w of nbits bits; every bit above nbits is 0. -/
def tableWord (nbits w : Nat) : CmdWord := BitVec.ofNat 64 (w % 2 ^ nbits)

/-- The command the decoder reads from a word of the opcode table, `none` where it rejects. -/
def decodeTableWord (nbits w : Nat) : Option Instr :=
  match decode (tableWord nbits w) with
  | .ok i => some i
  | .reject _ => none

end Sys2Proof
end

