-- ==== Sys2Proof/Config.lean ====
section
/-! DEFINITION. What one block fixes for its life (the parameters of R6 and R7, which R7 calls arguments of the model) as
plain data, and the free values of the environment. The functions over the parameters stand in Machine/Params.lean and
Machine/BitLayout.lean. -/

namespace Sys2Proof

/-- The three agents of R11 that take steps of their own are HOST, SCAN and ENV. ENV only answers draws (the word a
`ReadInput()` returns, whose turn it is), so a turn is one of the other two. -/
inductive Agent where
  | host
  | scan
deriving DecidableEq, Repr, Inhabited

/-- The sixteen named fields of the hardware word (R90), in the order of R90's table. -/
inductive WordField where
  | sw1 | sw2 | joy0 | joy1 | joy2 | joy3
  | outputEnable | clock | strobe | row
  | r1 | g1 | b1 | r2 | g2 | b2
deriving DecidableEq, Repr

/-- `LAYOUT` (R7, R91): for each one-bit field its bit position, and for `row` the position of its least significant bit. -/
structure Layout where
  sw1 : Nat
  sw2 : Nat
  joy0 : Nat
  joy1 : Nat
  joy2 : Nat
  joy3 : Nat
  outputEnable : Nat
  clock : Nat
  strobe : Nat
  row : Nat
  r1 : Nat
  g1 : Nat
  b1 : Nat
  r2 : Nat
  g2 : Nat
  b2 : Nat
deriving DecidableEq, Repr

/-- `FOLD` (R7, R230): `off` is the spec's `NONE`, `square n` its `SQUARE(N)`. -/
inductive Fold where
  | off
  | square (n : Nat)
deriving DecidableEq, Repr

/-- `LUT` (R7, R100): the reference table `LUT_REF` of R103, or any other table of 256 entries. -/
inductive LumTable where
  | reference
  | table (entries : List Byte)
deriving DecidableEq, Repr

/-- `RAMP` (R7, R101): the shift ramp this spec decides, or any other ramp, as eleven rows (plane counts 1 to 11) of 256
values each. -/
inductive Ramp where
  | shift
  | table (rows : List (List Nat))
deriving DecidableEq, Repr

/-- The parameters of R6 and R7. They are fixed for the life of the block (R35): no step writes them. -/
structure Config where
  /-- `CHAIN`, panels in the chain -/
  chain : Nat
  /-- `PANEL_ROWS`, physical rows of the panel -/
  panelRows : Nat
  /-- `LAYOUT` -/
  layout : Layout
  /-- `OE_ON`, the level of the output-enable field that means asserted; `OE_OFF` is the other level -/
  oeOn : Bool
  /-- `LUM_CORRECT` -/
  lumCorrect : Bool
  /-- `LUT` -/
  lut : LumTable
  /-- `RAMP` -/
  ramp : Ramp
  /-- `DWELL_UNIT`, in ticks -/
  dwellUnit : Nat
  /-- `PWM_BITS_RESET` -/
  pwmBitsReset : BitVec 4
  /-- `BRIGHTNESS_RESET` -/
  brightnessReset : BitVec 4
  /-- `FOLD` -/
  fold : Fold
  /-- `IO_INIT_OK`, the outcome of the external `Init()` -/
  ioInitOk : Bool
deriving DecidableEq, Repr

/-- FREE VALUE (R217, U8): the word ENV supplies at its n-th draw for a `ReadInput()`. Nothing constrains it. -/
opaque Config.envInput : Nat → Word

/-- FREE VALUE (R69, R267): the agent ENV lets move at its n-th draw when both HOST and SCAN could. Nothing constrains it. -/
opaque Config.envTurn : Nat → Agent

end Sys2Proof
end

