-- ==== Sys2Proof/Machine/BitLayout.lean ====
section
/-! DEFINITION. The Bit-Layout Model: masks, field access, `Encode`, `Decode`, `DecodeInput` (R90 to R99, R130 to R137), for
any `LAYOUT`. All of them are pure and total (R130). -/

namespace Sys2Proof

/-- All fields, in the order of R90's table. -/
def WordField.all : List WordField :=
  [.sw1, .sw2, .joy0, .joy1, .joy2, .joy3, .outputEnable, .clock, .strobe, .row, .r1, .g1, .b1, .r2, .g2, .b2]

/-- The width of a field (R90): `row` has 4 bits, every other field 1. -/
def WordField.width : WordField → Nat
  | .row => 4
  | _ => 1

/-- `pos(f)` (R91): for `row` the position of its least significant bit. -/
def Layout.pos (L : Layout) : WordField → Nat
  | .sw1 => L.sw1
  | .sw2 => L.sw2
  | .joy0 => L.joy0
  | .joy1 => L.joy1
  | .joy2 => L.joy2
  | .joy3 => L.joy3
  | .outputEnable => L.outputEnable
  | .clock => L.clock
  | .strobe => L.strobe
  | .row => L.row
  | .r1 => L.r1
  | .g1 => L.g1
  | .b1 => L.b1
  | .r2 => L.r2
  | .g2 => L.g2
  | .b2 => L.b2

/-- The bit positions a field occupies: `pos(f)` up to `pos(f) + width(f) - 1` (R91). -/
def Layout.bits (L : Layout) (f : WordField) : List Nat := List.range' (L.pos f) f.width

/-- A well-formed `LAYOUT` (R91): the 19 occupied positions are in 0..31 and pairwise distinct. -/
def Layout.wf (L : Layout) : Bool :=
  WordField.all.all (fun f => decide (L.pos f + f.width ≤ 32)) && decide (WordField.all.flatMap L.bits).Nodup

/-- `2^width(f) - 1` as a word (R92). -/
def WordField.ones (f : WordField) : Word := BitVec.ofNat 32 (2 ^ f.width - 1)

/-- `mask(f)` (R92). -/
def Layout.mask (L : Layout) (f : WordField) : Word := f.ones <<< L.pos f

/-- The union of the masks of some fields. -/
def Layout.maskOf (L : Layout) (fs : List WordField) : Word := fs.foldr (fun f m => L.mask f ||| m) 0#32

/-- The derived masks of R93. -/
def Layout.rgb1Mask (L : Layout) : Word := L.maskOf [.r1, .g1, .b1]
def Layout.rgb2Mask (L : Layout) : Word := L.maskOf [.r2, .g2, .b2]
def Layout.rgbMask (L : Layout) : Word := L.rgb1Mask ||| L.rgb2Mask
def Layout.rowMask (L : Layout) : Word := L.mask .row
def Layout.ctlMask (L : Layout) : Word := L.maskOf [.outputEnable, .clock, .strobe]
def Layout.inMask (L : Layout) : Word := L.maskOf [.sw1, .sw2, .joy0, .joy1, .joy2, .joy3]
def Layout.usedMask (L : Layout) : Word := L.rgbMask ||| L.rowMask ||| L.ctlMask ||| L.inMask

/-- `GetField(w, f)` (R92, R133). -/
def Layout.getField (L : Layout) (w : Word) (f : WordField) : Nat := ((w >>> L.pos f) &&& f.ones).toNat

/-- `v mod 2^width(f)`, the bit-width truncation of R96; a negative v reduces to its non-negative remainder (R131). -/
def WordField.truncate (f : WordField) (v : Int) : Nat := (v % (2 ^ f.width : Nat)).toNat

/-- A truncated value at its field's place. -/
def Layout.place (L : Layout) (f : WordField) (v : Int) : Word := BitVec.ofNat 32 (f.truncate v) <<< L.pos f

/-- `SetField(w, f, v)` (R134). -/
def Layout.setField (L : Layout) (w : Word) (f : WordField) (v : Int) : Word := (w &&& ~~~ L.mask f) ||| L.place f v

/-- The record of named signal values (R131): one integer for each field. -/
structure Signals where
  sw1 : Int := 0
  sw2 : Int := 0
  joy0 : Int := 0
  joy1 : Int := 0
  joy2 : Int := 0
  joy3 : Int := 0
  outputEnable : Int := 0
  clock : Int := 0
  strobe : Int := 0
  row : Int := 0
  r1 : Int := 0
  g1 : Int := 0
  b1 : Int := 0
  r2 : Int := 0
  g2 : Int := 0
  b2 : Int := 0
deriving DecidableEq, Repr

/-- `s.f` -/
def Signals.get (s : Signals) : WordField → Int
  | .sw1 => s.sw1
  | .sw2 => s.sw2
  | .joy0 => s.joy0
  | .joy1 => s.joy1
  | .joy2 => s.joy2
  | .joy3 => s.joy3
  | .outputEnable => s.outputEnable
  | .clock => s.clock
  | .strobe => s.strobe
  | .row => s.row
  | .r1 => s.r1
  | .g1 => s.g1
  | .b1 => s.b1
  | .r2 => s.r2
  | .g2 => s.g2
  | .b2 => s.b2

/-- `Encode(s)` (R131): every field truncated and placed; every unused bit 0. -/
def Layout.encodeSignals (L : Layout) (s : Signals) : Word :=
  WordField.all.foldr (fun f w => L.place f (s.get f) ||| w) 0#32

/-- `Decode(w)` (R132): the value of every field. -/
def Layout.decodeSignals (L : Layout) (w : Word) : Signals where
  sw1 := L.getField w .sw1
  sw2 := L.getField w .sw2
  joy0 := L.getField w .joy0
  joy1 := L.getField w .joy1
  joy2 := L.getField w .joy2
  joy3 := L.getField w .joy3
  outputEnable := L.getField w .outputEnable
  clock := L.getField w .clock
  strobe := L.getField w .strobe
  row := L.getField w .row
  r1 := L.getField w .r1
  g1 := L.getField w .g1
  b1 := L.getField w .b1
  r2 := L.getField w .r2
  g2 := L.getField w .g2
  b2 := L.getField w .b2

/-- The six input signals of R137. -/
structure InputSignals where
  sw1 : Bool
  sw2 : Bool
  joy0 : Bool
  joy1 : Bool
  joy2 : Bool
  joy3 : Bool
deriving DecidableEq, Repr

/-- `DecodeInput(w)` (R137): each input field's bit, from a single read. The host applies it; the block does not. -/
def Layout.decodeInput (L : Layout) (w : Word) : InputSignals where
  sw1 := w.getLsbD (L.pos .sw1)
  sw2 := w.getLsbD (L.pos .sw2)
  joy0 := w.getLsbD (L.pos .joy0)
  joy1 := w.getLsbD (L.pos .joy1)
  joy2 := w.getLsbD (L.pos .joy2)
  joy3 := w.getLsbD (L.pos .joy3)

/-- A bit as a word. -/
def bitWord (b : Bool) : Word := if b then 1#32 else 0#32

/-- `T1(rb, gb, bb)` (R97): the triplet of the pixel `y < R`. -/
def Layout.t1 (L : Layout) (rb gb bb : Bool) : Word :=
  (bitWord rb <<< L.pos .r1) ||| (bitWord gb <<< L.pos .g1) ||| (bitWord bb <<< L.pos .b1)

/-- `T2(rb, gb, bb)` (R97): the triplet of the pixel `y >= R`. -/
def Layout.t2 (L : Layout) (rb gb bb : Bool) : Word :=
  (bitWord rb <<< L.pos .r2) ||| (bitWord gb <<< L.pos .g2) ||| (bitWord bb <<< L.pos .b2)

/-- `Ctl(rr, clk, stb, oe)` (R99). -/
def Layout.ctl (L : Layout) (rr : Nat) (clk stb oe : Bool) : Word :=
  (BitVec.ofNat 32 (rr % 16) <<< L.pos .row) ||| (bitWord clk <<< L.pos .clock) |||
    (bitWord stb <<< L.pos .strobe) ||| (bitWord oe <<< L.pos .outputEnable)

end Sys2Proof
end

