-- ==== Sys2Proof/Machine/Params.lean ====
section
/-! DEFINITION. The functions over the parameters: derived sizes (R6, R8), the conditions a block's parameters meet (R7,
R91, R291 step 1, R235), the path from a channel value to plane bits (R100 to R103), the dwell (R189), and the reference
parameters the reset state is built with. -/

namespace Sys2Proof

/-- `C`, words per double row (R6). -/
def Config.cols (c : Config) : Nat := 32 * c.chain

/-- `R`, double rows (R6). -/
def Config.doubleRows (c : Config) : Nat := c.panelRows / 2

/-- `P_MAX` (R6). -/
def planesMax : Nat := 11

/-- `FB_WORDS`, the number of cells of the framebuffer (R8). -/
def Config.fbWords (c : Config) : Nat := planesMax * c.doubleRows * c.cols

/-- `Addr(k, r, c)` (R61): plane slowest, column fastest. -/
def Config.addr (c : Config) (k r col : Nat) : Nat := (k * c.doubleRows + r) * c.cols + col

/-- `OE_OFF` (R7). -/
def Config.oeOff (c : Config) : Bool := !c.oeOn

/-- The surface width `width()` answers (R158, R231). -/
def Config.width (c : Config) : Nat :=
  match c.fold with
  | .off => c.cols
  | .square n => n

/-- The surface height `height()` answers (R159, R231). -/
def Config.height (c : Config) : Nat :=
  match c.fold with
  | .off => 2 * c.doubleRows
  | .square n => n

/-- `LUT_REF` (R103), sixteen values a row. -/
def lumRef : List Nat :=
  [0, 0, 0, 0, 0, 0, 0, 0, 0, 0, 1, 1, 1, 1, 1, 1] ++
  [1, 1, 1, 2, 2, 2, 2, 2, 2, 2, 2, 3, 3, 3, 3, 3] ++
  [3, 3, 4, 4, 4, 4, 4, 5, 5, 5, 5, 5, 6, 6, 6, 6] ++
  [6, 7, 7, 7, 7, 8, 8, 8, 8, 9, 9, 9, 10, 10, 10, 11] ++
  [11, 11, 12, 12, 12, 13, 13, 13, 14, 14, 14, 15, 15, 16, 16, 16] ++
  [17, 17, 18, 18, 19, 19, 20, 20, 21, 21, 22, 22, 23, 23, 24, 24] ++
  [25, 25, 26, 26, 27, 28, 28, 29, 29, 30, 31, 31, 32, 33, 33, 34] ++
  [35, 35, 36, 37, 37, 38, 39, 40, 40, 41, 42, 43, 44, 44, 45, 46] ++
  [47, 48, 49, 49, 50, 51, 52, 53, 54, 55, 56, 57, 58, 59, 60, 61] ++
  [62, 63, 64, 65, 66, 67, 68, 69, 70, 71, 72, 73, 75, 76, 77, 78] ++
  [79, 80, 82, 83, 84, 85, 87, 88, 89, 90, 92, 93, 94, 96, 97, 99] ++
  [100, 101, 103, 104, 106, 107, 108, 110, 111, 113, 114, 116, 118, 119, 121, 122] ++
  [124, 125, 127, 129, 130, 132, 134, 135, 137, 139, 141, 142, 144, 146, 148, 149] ++
  [151, 153, 155, 157, 159, 161, 162, 164, 166, 168, 170, 172, 174, 176, 178, 180] ++
  [182, 185, 187, 189, 191, 193, 195, 197, 200, 202, 204, 206, 208, 211, 213, 215] ++
  [218, 220, 222, 225, 227, 230, 232, 234, 237, 239, 242, 244, 247, 249, 252, 255]

/-- `LUT(v)` (R7, R100). -/
def LumTable.apply (t : LumTable) (v : Byte) : Byte :=
  match t with
  | .reference => BitVec.ofNat 8 (lumRef.getD v.toNat 0)
  | .table entries => entries.getD v.toNat 0#8

/-- A list of numbers that never steps down. -/
def ascending : List Nat → Bool
  | [] => true
  | [_] => true
  | a :: b :: rest => decide (a ≤ b) && ascending (b :: rest)

/-- `LUT` meets R100: 256 entries, `LUT(0) = 0`, non-decreasing. -/
def LumTable.wf : LumTable → Bool
  | .reference => true
  | .table entries =>
    decide (entries.length = 256) && decide (entries.getD 0 0#8 = 0#8) && ascending (entries.map BitVec.toNat)

/-- `ChannelMap(v)` (R100). -/
def Config.channelMap (c : Config) (v : Byte) : Byte := if c.lumCorrect then c.lut.apply v else v

/-- The shift ramp of R101: the channel's most significant bit goes to the most significant plane. -/
def shiftRamp (v p : Nat) : Nat := if p ≤ 8 then v >>> (8 - p) else v <<< (p - 8)

/-- `RAMP(v, p)` (R7, R101). -/
def Ramp.apply (r : Ramp) (v : Byte) (p : Nat) : Nat :=
  match r with
  | .shift => shiftRamp v.toNat p
  | .table rows => (rows.getD (p - 1) []).getD v.toNat 0

/-- The rows of a ramp table for plane counts p, p + 1, ... meet R101: 256 values each, the first 0, non-decreasing, below
`2^p`. -/
def rampRowsOk (p : Nat) : List (List Nat) → Bool
  | [] => true
  | row :: rest =>
    decide (row.length = 256) && decide (row.getD 0 0 = 0) && ascending row &&
      row.all (fun v => decide (v < 2 ^ p)) && rampRowsOk (p + 1) rest

/-- `RAMP` meets R101 for every plane count 1 to 11. -/
def Ramp.wf : Ramp → Bool
  | .shift => true
  | .table rows => decide (rows.length = planesMax) && rampRowsOk 1 rows

/-- `RAMP(ChannelMap(v), p)`: the value a channel is displayed with (R102, R161). -/
def Config.level (c : Config) (v : Byte) (p : Nat) : Nat := c.ramp.apply (c.channelMap v) p

/-- `PlaneBit(v, p, k)` (R102). -/
def Config.planeBit (c : Config) (v : Byte) (p k : Nat) : Bool := (c.level v p).testBit k

/-- `DwellTicks(k, br)` (R189), a mathematical product that does not wrap (R105 (d)). -/
def Config.dwellTicks (c : Config) (k br : Nat) : Nat := c.dwellUnit * br * 2 ^ k

/-- The conditions on the parameters of a block (R6, R7, R291 step 1). -/
def Config.wf (c : Config) : Bool :=
  decide (1 ≤ c.chain) && decide (c.panelRows % 2 = 0) && decide (1 ≤ c.doubleRows) && decide (c.doubleRows ≤ 16) &&
    c.layout.wf && c.lut.wf && c.ramp.wf && decide (1 ≤ c.dwellUnit) &&
    decide (1 ≤ c.pwmBitsReset.toNat) && decide (c.pwmBitsReset.toNat ≤ 11) &&
    decide (1 ≤ c.brightnessReset.toNat) && decide (c.brightnessReset.toNat ≤ 10)

/-- The fold's construction check (R235): N even, `C = 2N`, `2R = N/2`. -/
def Config.foldOk (c : Config) : Bool :=
  match c.fold with
  | .off => true
  | .square n => decide (n % 2 = 0) && decide (c.cols = 2 * n) && decide (2 * c.doubleRows = n / 2)

/-- `LAYOUT_REF` (R94): this spec's own reference layout. -/
def Layout.reference : Layout where
  sw1 := 0
  sw2 := 1
  joy0 := 2
  joy1 := 3
  joy2 := 4
  joy3 := 5
  outputEnable := 6
  clock := 7
  strobe := 8
  row := 9
  r1 := 13
  g1 := 14
  b1 := 15
  r2 := 16
  g2 := 17
  b2 := 18

/-- The parameters of the reset state. DESIGN CHOICE (log entry 1): the reference values of R7 where it gives one, and for
the rows it marks 'stated per vector' the parameters of Program 2 of 95_test_vectors.md. Every statement about reset in
terms of R40 is made for all parameters, not for these. -/
def Config.reference : Config where
  chain := 1
  panelRows := 32
  layout := Layout.reference
  oeOn := true
  lumCorrect := false
  lut := .reference
  ramp := .shift
  dwellUnit := 1
  pwmBitsReset := 8#4
  brightnessReset := 10#4
  fold := .off
  ioInitOk := true

end Sys2Proof
end

