-- ==== Sys2Proof/Machine/State.lean ====
section
/-! DEFINITION. The whole state of the block (10_state.md), the failure and refusal reasons, and the state after reset. -/

namespace Sys2Proof
namespace Machine

/-- The framebuffer as (word index, word) pairs (R23, R60, R64: it is indexed by cell and never by byte). An index that is
not listed reads 0, the reset content of R40. -/
abbrev Memory := List (Nat × Word)

/-- The pairs' indices are strictly rising from `lo` up, and none holds 0. -/
def Memory.wfFrom (lo : Nat) : Memory → Bool
  | [] => true
  | (a, w) :: rest => decide (lo ≤ a) && decide (w ≠ 0#32) && Memory.wfFrom (a + 1) rest

/-- The one canonical form of a framebuffer: indices strictly rising, no entry equal to what an unlisted index reads as. -/
def Memory.wf (m : Memory) : Bool := Memory.wfFrom 0 m

/-- The state of the scan-out task (R27, R245). -/
inductive TaskState where
  | created
  | running
  | stopping
  | joined
deriving DecidableEq, Repr

/-- The binding to the Register I/O service (R29). -/
inductive IoState where
  | ready
  | failed
deriving DecidableEq, Repr

/-- Which output event of a pass comes next (R30). -/
inductive Phase where
  | shiftLo
  | shiftHi
  | strobeHi
  | strobeLo
  | oeAssert
  | dwell
  | oeRelease
deriving DecidableEq, Repr

/-- The sequencer position `pos` (R30). -/
structure Pos where
  /-- a frame is in progress -/
  inFrame : Bool
  /-- current double row -/
  r : Nat
  /-- current plane -/
  k : Nat
  /-- current column -/
  c : Nat
  phase : Phase
  /-- the colour bits latched at `SHIFT_LO`, reused at `SHIFT_HI` -/
  cur : Word
  /-- the plane count sampled at the frame start -/
  pFrame : BitVec 4
  /-- a direct `UpdateScreen` waits for one frame -/
  frameReq : Bool
deriving DecidableEq, Repr

/-- The command in progress on the host port and how far it has gone (R31). -/
inductive HostOp where
  | idle
  /-- `SetPixel` at the physical pixel (x, y), with the sampled plane count; `next` is the next plane (R152) -/
  | setPixel (next planes x y : Nat) (r g b : Byte)
  /-- `Fill`, with the sampled plane count; `next` is the next cell index (R156) -/
  | fill (next planes : Nat) (r g b : Byte)
  /-- `Clear`, likewise (R157) -/
  | clear (next planes : Nat)
  /-- the held success path of `SetPWMBits(n)` (R211) -/
  | setPwmBits (n : BitVec 4)
  /-- a direct `UpdateScreen` waiting for its frame (R192) -/
  | waitFrame
  /-- `Stop` waiting for `Joined` (R248) -/
  | waitJoin
deriving DecidableEq, Repr

/-- An output event (R10, R34). -/
inductive Event where
  | write (w : Word)
  | dwell (ticks : Nat)
deriving DecidableEq, Repr

/-- The failures of R261 that have a code. -/
inductive Failure where
  | ioInitFailed
  | foldGeometry
  | invalidPwmBits
  | illegalCommand
deriving DecidableEq, Repr

/-- The result of a host command (R12, R114). -/
inductive Result where
  /-- `OK` without a value -/
  | ok
  /-- `OK(value)`: GETINPUT, GETWIDTH, GETHEIGHT -/
  | okValue (v : Word)
  /-- `FAIL(reason)` -/
  | fail (why : Failure)
  /-- `ILLEGAL`: a word that spells no command -/
  | illegal
deriving DecidableEq, Repr

/-- ENV's side of the run, the MODEL's own field (log entries 4 and 5): choices ENV has already made, oldest first, and how
many free draws it has made beyond them. -/
structure Env where
  /-- the agents that move at the coming steps -/
  turns : List Agent
  /-- the words the coming `ReadInput()` calls return -/
  inputs : List Word
  /-- free draws of a turn so far -/
  turnDraws : Nat
  /-- free draws of an input word so far -/
  inputDraws : Nat
deriving DecidableEq, Repr

/-- A step that stops the machine with a fault. No state that satisfies the model's invariant raises one (R65). -/
inductive Fault where
  /-- Raised by a framebuffer access at an index outside 0..FB_WORDS-1, which R60 says does not exist and R65 says no access
  reaches. Safe: the machine stops where nothing is specified. -/
  | noSuchCell (index : Nat)
deriving DecidableEq, Repr

/-- A step the model gives no meaning to, as R12, R281 and 93_implementation_defined.md ('refuse') ask. All are safe: a claim
about a run containing one is unprovable. -/
inductive Refusal where
  /-- Raised by `exec` for an instruction whose meaning is not written. No arm raises it. -/
  | notModelled (mnemonic : String)
  /-- Raised by every command and by the fetch of one while `io = Failed` (R29, R281, R292). -/
  | notOperational
  /-- Raised by every meaning while the host port holds a command; the port takes one command at a time (R31, R73). `step`
  never asks for it. -/
  | hostPortBusy
  /-- Raised by UPDATESCREEN unless `task` is `Created` or `Joined` and no frame is in progress (R192, R281, U11). -/
  | updateScreenNotAdmitted
  /-- Raised by START unless `task = Created` (R246, R251, R281, U7). -/
  | startNotAdmitted
  /-- Raised by STOP unless `task = Running` (R248, R281, U7). -/
  | stopNotAdmitted
  /-- Raised by a new construction over a block whose task runs or whose frame is in progress (R295, U6). -/
  | resetNotAdmitted
  /-- Raised by construction from parameters that are not those of a block (R291 step 1). -/
  | notABlock
deriving DecidableEq, Repr

/-- The state of the block, its two external registers (R33) and the record of what can be observed (R11, R34). -/
structure State where
  /-- the parameters, an argument of the model (R7); no step writes them (R35) -/
  cfg : Config
  /-- `fb` (R23) -/
  fb : Memory
  /-- `pwm_bits` (R26) -/
  pwmBits : BitVec 4
  /-- `brightness` (R28) -/
  brightness : BitVec 4
  /-- `task` (R27) -/
  task : TaskState
  /-- `io` (R29) -/
  io : IoState
  /-- `pos` (R30) -/
  pos : Pos
  /-- `host_op` (R31) -/
  hostOp : HostOp
  /-- the output register of the Register I/O service (R33, R273) -/
  outputReg : Word
  /-- the input register of the Register I/O service at the last `ReadInput()` (R33, R274) -/
  inputReg : Word
  /-- the dwell timer, as last loaded (R271) -/
  dwellTimer : Nat
  /-- the output trace since reset, NEWEST FIRST (R34) -/
  trace : List Event
  /-- the results of the completed host commands since reset, NEWEST FIRST (R11, R114) -/
  results : List Result
  /-- the command words the host has yet to issue, in order (R11, R73) -/
  port : List CmdWord
  /-- ENV's choices -/
  env : Env
deriving DecidableEq, Repr

/-- `pos` at reset (R40). DESIGN CHOICE (log entry 3): `cur` and `p_frame`, unspecified there, are 0 and 1. -/
def Pos.initial : Pos where
  inFrame := false
  r := 0
  k := 0
  c := 0
  phase := .shiftLo
  cur := 0#32
  pFrame := 1#4
  frameReq := false

/-- ENV at the first construction: no choice made in advance, no draw made. DESIGN CHOICE: log entries 4 and 5; what a new
construction does to ENV is log entry 19. -/
def Env.initial : Env where
  turns := []
  inputs := []
  turnDraws := 0
  inputDraws := 0

/-- The state of a successfully constructed block with the parameters c (R40, R291 step 4). DESIGN CHOICE (log entry 3): the
registers R40 leaves unspecified (both external registers, the dwell timer) are 0. The host port and ENV are outside R40: here
nothing is laid down yet, and a new construction keeps what there is (log entry 19, at `State.replacedBy`). -/
def State.initial (c : Config) : State where
  cfg := c
  fb := []
  pwmBits := c.pwmBitsReset
  brightness := c.brightnessReset
  task := .created
  io := .ready
  pos := Pos.initial
  hostOp := .idle
  outputReg := 0#32
  inputReg := 0#32
  dwellTimer := 0
  trace := []
  results := []
  port := []
  env := Env.initial

/-- The machine right after reset, that is, after construction (R40, R290) with the reference parameters. -/
def State.reset : State := State.initial Config.reference

end Machine
end Sys2Proof
end

