-- ==== Sys2Proof/Machine/Ops.lean ====
section
/-! DEFINITION. The named operations over the state: framebuffer cells (R60 to R67), the Register I/O service (R273, R274),
the delivery of a result, which is also how a failure is delivered (R268: there is no trap entry, R269: there is no return),
ENV's draws, and construction (R291, R292). -/

namespace Sys2Proof
namespace Machine

/-- The outcome of a step of this machine. -/
abbrev Outcome := Host.Outcome State Fault Refusal

/-- The word at an index, 0 where none is listed. -/
def Memory.read (m : Memory) (a : Nat) : Word :=
  match m with
  | [] => 0#32
  | (b, w) :: rest => if a < b then 0#32 else if a = b then w else Memory.read rest a

/-- The framebuffer with the word w at index a, in canonical form. -/
def Memory.write (m : Memory) (a : Nat) (w : Word) : Memory :=
  match m with
  | [] => if w = 0#32 then [] else [(a, w)]
  | (b, x) :: rest =>
    if a < b then (if w = 0#32 then (b, x) :: rest else (a, w) :: (b, x) :: rest)
    else if a = b then (if w = 0#32 then rest else (a, w) :: rest)
    else (b, x) :: Memory.write rest a w

/-- `FB[k][r][c]` (R10, R61). -/
def State.cell (s : State) (k r c : Nat) : Word := s.fb.read (s.cfg.addr k r c)

/-- `MemWrite(a, 32, w)`: one cell replaced whole (R64, R66). -/
def State.storeCell (s : State) (a : Nat) (w : Word) : State := { s with fb := s.fb.write a w }

/-- The update of R211: the plane count becomes n and every cell of every plane becomes 0, in one step. -/
def State.resize (s : State) (n : BitVec 4) : State := { s with pwmBits := n, fb := [] }

/-- An access to the cell at index a, which exists only below `FB_WORDS` (R60); `go` is what the access is for. -/
def accessCell (s : State) (a : Nat) (go : Word → Outcome) : Outcome :=
  if a < s.cfg.fbWords then go (s.fb.read a) else .fault (.noSuchCell a)

/-- The brightness register written. -/
def State.setBrightness (s : State) (br : BitVec 4) : State := { s with brightness := br }

/-- The task register written (R27, R253). -/
def State.setTask (s : State) (t : TaskState) : State := { s with task := t }

/-- The sequencer position written. -/
def State.setPos (s : State) (p : Pos) : State := { s with pos := p }

/-- The host port left holding a command (R31). -/
def State.hold (s : State) (op : HostOp) : State := { s with hostOp := op }

/-- A command completes: the host port is idle again and the result is delivered (R31, R114). A failure is delivered this
way and no other (R268). -/
def State.complete (s : State) (r : Result) : State := { s with hostOp := .idle, results := r :: s.results }

/-- `WriteOutput(w)` (R67, R273): the whole output register replaced, one event recorded. -/
def State.writeOutput (s : State) (w : Word) : State := { s with outputReg := w, trace := .write w :: s.trace }

/-- `Dwell(d)` (R10, R271): the dwell timer loaded, one event recorded. -/
def State.loadDwell (s : State) (d : Nat) : State := { s with dwellTimer := d, trace := .dwell d :: s.trace }

/-- The word the next `ReadInput()` returns: ENV's next choice, or a free draw (R217). -/
def State.inputWord (s : State) : Word :=
  match s.env.inputs with
  | w :: _ => w
  | [] => Config.envInput s.env.inputDraws

/-- ENV after one draw of an input word. -/
def Env.afterInput (e : Env) : Env :=
  match e.inputs with
  | _ :: ws => { e with inputs := ws }
  | [] => { e with inputDraws := e.inputDraws + 1 }

/-- `ReadInput()` (R274): the input register shows the word drawn; nothing of the block changes. -/
def State.readInput (s : State) : State := { s with inputReg := s.inputWord, env := s.env.afterInput }

/-- ENV after one draw of a turn. -/
def Env.afterTurn (e : Env) : Env :=
  match e.turns with
  | _ :: ts => { e with turns := ts }
  | [] => { e with turnDraws := e.turnDraws + 1 }

/-- The state after ENV has said whose turn it is. -/
def State.takeTurn (s : State) : State := { s with env := s.env.afterTurn }

/-- The host port after the next command word has been taken (R73: in order, one at a time). -/
def State.popPort (s : State) : State := { s with port := s.port.tail }

/-- The output trace in order, oldest first (R34). -/
def State.outputTrace (s : State) : List Event := s.trace.reverse

/-- The numeric label of a failure (R261, decision D28). -/
def Failure.code : Failure → Nat
  | .ioInitFailed => 1
  | .foldGeometry => 2
  | .invalidPwmBits => 3
  | .illegalCommand => 4

/-- What construction gives (R262): a block, a fatal configuration error, or nothing, because the parameters are not those
of a block (R291 step 1). -/
inductive Construction where
  | built (s : State)
  | fatal (why : Failure)
  | notABlock
deriving DecidableEq, Repr

/-- Construction, the only reset there is (R290): the order of checks and actions of R291. -/
def construct (c : Config) : Construction :=
  if c.wf = false then .notABlock
  else if c.foldOk = false then .fatal .foldGeometry
  else if c.ioInitOk = false then .fatal .ioInitFailed
  else .built (State.initial c)

/-- The block after `ConfigFatal` (R262, R292): no command is admitted and SCAN has no step. Only `io` is defined. -/
def State.dead (c : Config) : State := { State.initial c with io := .failed }

/-- A block may be constructed anew only when no task runs and no frame is in progress (R295, U6). -/
def State.mayReset (s : State) : Bool :=
  (decide (s.task = .created) || decide (s.task = .joined)) && !s.pos.inFrame

/-- The newly constructed t in place of s. DESIGN CHOICE (log entry 19): R40 lists the block's state only, so the host and ENV,
which are outside the block, keep what they have laid down: the words not yet issued, ENV's choices and its counts of free
draws, so that no free value is drawn a second time. The records of what was observed start anew with t (R34). -/
def State.replacedBy (s t : State) : State := { t with port := s.port, env := s.env }

/-- A new construction over the block s (R290, R295), offered to the outside world; it is no step of the machine. What becomes
of the host's words and of ENV's choices is the model's own choice (log entry 19, at `State.replacedBy`). -/
def reconstruct (c : Config) (s : State) : Outcome :=
  if s.mayReset = false then .refused .resetNotAdmitted
  else match construct c with
    | .built t => .next (s.replacedBy t)
    | .fatal _ => .next (s.replacedBy (State.dead c))
    | .notABlock => .refused .notABlock

end Machine
end Sys2Proof
end

