-- ==== Sys2Proof/Machine/Operands.lean ====
section
/-! DEFINITION. The operand forms: the coordinate pair with its bounds checks and the fold in front of it (R62, R151, R232,
R233), the pixel's cell and triplet, the colour operand as plane bits, and the plane count n (R210). -/

namespace Sys2Proof
namespace Machine

/-- The fold stage (R232, R233): `none` where a logical coordinate is outside the square; without the stage the host's
coordinates are physical (R230). -/
def foldPixel (c : Config) (x y : Int) : Option (Int × Int) :=
  match c.fold with
  | .off => some (x, y)
  | .square n =>
    if x < 0 ∨ (n : Int) ≤ x ∨ y < 0 ∨ (n : Int) ≤ y then none
    else if y < (n / 2 : Nat) then some (x, y)
    else some ((2 * (n : Int) - 1) - x, ((n : Int) - 1) - y)

/-- The base driver's bounds check (R151): the physical pixel, `none` outside [0,C) x [0,2R). -/
def basePixel (c : Config) (x y : Int) : Option (Nat × Nat) :=
  if x < 0 ∨ (c.cols : Int) ≤ x ∨ y < 0 ∨ (2 * c.doubleRows : Nat) ≤ y then none
  else some (x.toNat, y.toNat)

/-- The physical pixel a coordinate pair names, `none` where the operation is dropped (R151, R232, R233). -/
def locatePixel (c : Config) (x y : Int) : Option (Nat × Nat) :=
  match foldPixel c x y with
  | none => none
  | some (x', y') => basePixel c x' y'

/-- The index of the cell that holds plane k of the physical pixel (x, y) (R62). -/
def pixelCell (c : Config) (k x y : Nat) : Nat := c.addr k (y % c.doubleRows) x

/-- The mask of the triplet of a pixel in row y (R62, R152). -/
def tripletMask (c : Config) (y : Nat) : Word := if y < c.doubleRows then c.layout.rgb1Mask else c.layout.rgb2Mask

/-- The triplet bits of a pixel in row y (R97, R152). -/
def tripletBits (c : Config) (y : Nat) (rb gb bb : Bool) : Word :=
  if y < c.doubleRows then c.layout.t1 rb gb bb else c.layout.t2 rb gb bb

/-- The word of R152: the chosen triplet of the word w replaced by plane k of the colour (r, g, b), every other bit of w
kept. -/
def setTriplet (c : Config) (w : Word) (y : Nat) (p k : Nat) (r g b : Byte) : Word :=
  (w &&& ~~~ tripletMask c y) ||| tripletBits c y (c.planeBit r p k) (c.planeBit g p k) (c.planeBit b p k)

/-- `FillWord(k)` (R155). -/
def fillWord (c : Config) (p k : Nat) (r g b : Byte) : Word :=
  c.layout.t1 (c.planeBit r p k) (c.planeBit g p k) (c.planeBit b p k) |||
    c.layout.t2 (c.planeBit r p k) (c.planeBit g p k) (c.planeBit b p k)

/-- The cells of one plane (R156). -/
def planeCells (c : Config) : Nat := c.doubleRows * c.cols

/-- The plane count an integer n asks for, `none` outside 1..11 (R210, R212). -/
def planeCount (n : Int) : Option (BitVec 4) :=
  if n < 1 ∨ 11 < n then none else some (BitVec.ofNat 4 n.toNat)

/-- `PlaneBits(x, y, k)` (R161): red, green and blue of a physical pixel in plane k, read back for statements and tests; no
command returns them. -/
def planeBits (c : Config) (fb : Memory) (x y k : Nat) : Bool × Bool × Bool :=
  let w := fb.read (pixelCell c k x y)
  if y < c.doubleRows then (w.getLsbD c.layout.r1, w.getLsbD c.layout.g1, w.getLsbD c.layout.b1)
  else (w.getLsbD c.layout.r2, w.getLsbD c.layout.g2, w.getLsbD c.layout.b2)

end Machine
end Sys2Proof
end

