-- ==== Sys2Proof/Machine/Flags.lean ====
section
/-! DEFINITION. The block has no status flags, condition codes or predicates (R22), so no operation computes one. What the
spec does call a flag, the task's liveness flag, is a predicate of the `task` register (R27); it stands here with the other
predicates of the control state: the admission table of R281 and which agent can move. -/

namespace Sys2Proof
namespace Machine

/-- The liveness flag (R27, R245). -/
def State.live (s : State) : Bool := decide (s.task = .running)

/-- The host port holds the success path of a `SetPWMBits` (R183, R211). -/
def State.resizeHeld (s : State) : Bool :=
  match s.hostOp with
  | .setPwmBits _ => true
  | .idle => false
  | .setPixel _ _ _ _ _ _ _ => false
  | .fill _ _ _ _ _ => false
  | .clear _ _ => false
  | .waitFrame => false
  | .waitJoin => false

/-- Why a command is not admitted in a state, `none` where it is (R281). -/
def admission (i : Instr) (s : State) : Option Refusal :=
  if s.io = .failed then some .notOperational
  else if s.hostOp ≠ .idle then some .hostPortBusy
  else match i with
    | .setPixel _ _ _ _ _ => none
    | .fill _ _ _ => none
    | .clear => none
    | .updateScreen =>
      if (s.task = .created ∨ s.task = .joined) ∧ s.pos.inFrame = false then none else some .updateScreenNotAdmitted
    | .setPwmBits _ => none
    | .incBright => none
    | .decBright => none
    | .getInput => none
    | .getWidth => none
    | .getHeight => none
    | .start => if s.task = .created then none else some .startNotAdmitted
    | .stop => if s.task = .running then none else some .stopNotAdmitted

/-- A command runs where it is admitted and has no step elsewhere (R12, R281). -/
def whenAdmitted (i : Instr) (s : State) (go : Outcome) : Outcome :=
  match admission i s with
  | none => go
  | some why => .refused why

/-- The frame start is enabled (R183); `io` is looked at in `scanReady`. -/
def State.frameStartEnabled (s : State) : Bool :=
  !s.pos.inFrame && (s.live || s.pos.frameReq) && !s.resizeHeld

/-- SCAN has a step (R183 to R191, R249, R292). -/
def State.scanReady (s : State) : Bool :=
  decide (s.io = .ready) && (s.pos.inFrame || decide (s.task = .stopping) || s.frameStartEnabled)

/-- HOST has something to do: a command word to issue, a micro-step to take, or a hold that has been lifted (R31, R73, R192,
R211, R248). -/
def State.hostReady (s : State) : Bool :=
  match s.hostOp with
  | .idle => !s.port.isEmpty
  | .setPixel _ _ _ _ _ _ _ => true
  | .fill _ _ _ _ _ => true
  | .clear _ _ => true
  | .setPwmBits _ => !s.pos.inFrame
  | .waitFrame => !s.pos.frameReq
  | .waitJoin => decide (s.task = .joined)

end Machine
end Sys2Proof
end

