-- ==== Sys2Proof/Machine/Pixel.lean ====
section
/-! DEFINITION. The pixel commands SETPIXEL, FILL and CLEAR with their micro-steps, and the two size queries (41_pixel_ops.md).
A meaning takes the command on the host port: the check and the sampling of `pwm_bits`. The cells are then written by the
command's micro-steps, one atomic cell update each, and SCAN may move between any two (R70, R152, R156). -/

namespace Sys2Proof
namespace Machine

/-- `SetPixel` goes on with plane `next`, or is complete when all sampled planes are written (R152, R153). -/
def resumeSetPixel (s : State) (next planes x y : Nat) (r g b : Byte) : State :=
  if next < planes then s.hold (.setPixel next planes x y r g b) else s.complete .ok

/-- The plane micro-step of `SetPixel` (R152): one atomic read-modify-write of one cell. -/
def microSetPixel (k planes x y : Nat) (r g b : Byte) (s : State) : Outcome :=
  accessCell s (pixelCell s.cfg k x y) fun w =>
    .next (resumeSetPixel (s.storeCell (pixelCell s.cfg k x y) (setTriplet s.cfg w y planes k r g b))
      (k + 1) planes x y r g b)

/-- `Fill` goes on with the cell `next`, or is complete when every cell of the sampled planes is written (R156). -/
def resumeFill (s : State) (next planes : Nat) (r g b : Byte) : State :=
  if next < planes * planeCells s.cfg then s.hold (.fill next planes r g b) else s.complete .ok

/-- The cell micro-step of `Fill` (R156): the whole cell of index `next` replaced; its plane is its index divided by the
cells of a plane (R61). -/
def microFill (next planes : Nat) (r g b : Byte) (s : State) : Outcome :=
  accessCell s next fun _ =>
    .next (resumeFill (s.storeCell next (fillWord s.cfg planes (next / planeCells s.cfg) r g b)) (next + 1) planes r g b)

/-- `Clear` goes on with the cell `next`, or is complete (R157). -/
def resumeClear (s : State) (next planes : Nat) : State :=
  if next < planes * planeCells s.cfg then s.hold (.clear next planes) else s.complete .ok

/-- The cell micro-step of `Clear` (R157): `FillWord(k) = 0` for every k. -/
def microClear (next planes : Nat) (s : State) : Outcome :=
  accessCell s next fun _ => .next (resumeClear (s.storeCell next 0#32) (next + 1) planes)

/-- SETPIXEL (R150 to R153, R232, R233): a coordinate outside the surface is dropped with `OK`; otherwise `pwm_bits` is
sampled and the micro-steps follow. -/
def execSetPixel (x y : Int) (r g b : Byte) (s : State) : Outcome :=
  whenAdmitted (.setPixel x y r g b) s <|
    match locatePixel s.cfg x y with
    | none => .next (s.complete .ok)
    | some (px, py) => .next (resumeSetPixel s 0 s.pwmBits.toNat px py r g b)

/-- FILL (R155, R156, R234): `pwm_bits` is sampled and the micro-steps follow; the fold does not touch it. -/
def execFill (r g b : Byte) (s : State) : Outcome :=
  whenAdmitted (.fill r g b) s <| .next (resumeFill s 0 s.pwmBits.toNat r g b)

/-- CLEAR (R157, R234). -/
def execClear (s : State) : Outcome :=
  whenAdmitted .clear s <| .next (resumeClear s 0 s.pwmBits.toNat)

/-- GETWIDTH (R158, R231). -/
def execGetWidth (s : State) : Outcome :=
  whenAdmitted .getWidth s <| .next (s.complete (.okValue (BitVec.ofNat 32 s.cfg.width)))

/-- GETHEIGHT (R159, R231). -/
def execGetHeight (s : State) : Outcome :=
  whenAdmitted .getHeight s <| .next (s.complete (.okValue (BitVec.ofNat 32 s.cfg.height)))

end Machine
end Sys2Proof
end

