-- ==== Sys2Proof/Machine/Settings.lean ====
section
/-! DEFINITION. The configuration and input commands SETPWMBITS, INCBRIGHT, DECBRIGHT and GETINPUT (43_config_ops.md). -/

namespace Sys2Proof
namespace Machine

/-- The success path of `SetPWMBits(n)` (R211): held while a frame is in progress, else done whole in one step. -/
def applyPwmBits (n : BitVec 4) (s : State) : State :=
  if s.pos.inFrame then s.hold (.setPwmBits n) else (s.resize n).complete .ok

/-- SETPWMBITS (R210 to R212). -/
def execSetPwmBits (n : Int) (s : State) : Outcome :=
  whenAdmitted (.setPwmBits n) s <|
    match planeCount n with
    | none => .next (s.complete (.fail .invalidPwmBits))
    | some p => .next (applyPwmBits p s)

/-- The level after one step up (R213). -/
def nextBrighter (br : BitVec 4) : BitVec 4 := if br = 10#4 then 1#4 else br + 1#4

/-- The level after one step down (R214). -/
def nextDarker (br : BitVec 4) : BitVec 4 := if br = 1#4 then 10#4 else br - 1#4

/-- INCBRIGHT (R213). -/
def execIncBright (s : State) : Outcome :=
  whenAdmitted .incBright s <| .next ((s.setBrightness (nextBrighter s.brightness)).complete .ok)

/-- DECBRIGHT (R214). -/
def execDecBright (s : State) : Outcome :=
  whenAdmitted .decBright s <| .next ((s.setBrightness (nextDarker s.brightness)).complete .ok)

/-- GETINPUT (R216, R217): the word ENV supplies, whole and unmasked. -/
def execGetInput (s : State) : Outcome :=
  whenAdmitted .getInput s <| .next (s.readInput.complete (.okValue s.inputWord))

end Machine
end Sys2Proof
end

