-- ==== Sys2Proof/Machine/TaskControl.lean ====
section
/-! DEFINITION. The commands that start frames and run the scan-out task: UPDATESCREEN (R192), START (R246), STOP (R248). -/

namespace Sys2Proof
namespace Machine

/-- The position with a frame requested (R192). -/
def Pos.request (p : Pos) : Pos := { p with frameReq := true }

/-- UPDATESCREEN, the direct command (R192): one frame is requested and the host port waits for its end. -/
def execUpdateScreen (s : State) : Outcome :=
  whenAdmitted .updateScreen s <| .next ((s.setPos s.pos.request).hold .waitFrame)

/-- START (R246): the liveness flag is set. -/
def execStart (s : State) : Outcome :=
  whenAdmitted .start s <| .next ((s.setTask .running).complete .ok)

/-- STOP (R248): the liveness flag is cleared, and the host port waits for `Joined`. -/
def execStop (s : State) : Outcome :=
  whenAdmitted .stop s <| .next ((s.setTask .stopping).hold .waitJoin)

end Machine
end Sys2Proof
end

