-- ==== Sys2Proof/Machine/Dispatch.lean ====
section
/-! DEFINITION. One arm for each command of R111: taking the command on the idle host port. -/

namespace Sys2Proof
namespace Machine

def exec (i : Instr) (s : State) : Host.Outcome State Fault Refusal :=
  match i with
  | .setPixel x y r g b => Sys2Proof.Machine.execSetPixel x y r g b s
  | .fill r g b => Sys2Proof.Machine.execFill r g b s
  | .clear => Sys2Proof.Machine.execClear s
  | .updateScreen => Sys2Proof.Machine.execUpdateScreen s
  | .setPwmBits n => Sys2Proof.Machine.execSetPwmBits n s
  | .incBright => Sys2Proof.Machine.execIncBright s
  | .decBright => Sys2Proof.Machine.execDecBright s
  | .getInput => Sys2Proof.Machine.execGetInput s
  | .getWidth => Sys2Proof.Machine.execGetWidth s
  | .getHeight => Sys2Proof.Machine.execGetHeight s
  | .start => Sys2Proof.Machine.execStart s
  | .stop => Sys2Proof.Machine.execStop s

end Machine
end Sys2Proof
end

