-- ==== Sys2Proof/Machine/Scan.lean ====
section
/-! DEFINITION. The scan-out sequencer, one output event a step (R183 to R190), and the task's confirmation of termination
(R249). -/

namespace Sys2Proof
namespace Machine

/-- The position at the start of a frame with plane count p (R183). -/
def Pos.begin (q : Pos) (p : BitVec 4) : Pos :=
  { q with pFrame := p, r := 0, k := 0, c := 0, phase := .shiftLo, inFrame := true }

/-- Frame start (R183): `pwm_bits` is sampled; no output event. -/
def scanFrameStart (s : State) : State := s.setPos (s.pos.begin s.pwmBits)

/-- `Ctl(pos.r, clk, stb, oe)` for the row being scanned (R99). -/
def State.ctl (s : State) (clk stb oe : Bool) : Word := s.cfg.layout.ctl s.pos.r clk stb oe

/-- The position with column data latched and the clock still to rise (R184). -/
def Pos.latch (q : Pos) (w : Word) : Pos := { q with cur := w, phase := .shiftHi }

/-- `SHIFT_LO` (R184): the one framebuffer read of the sequencer, masked to the triplets. -/
def scanShiftLo (s : State) : Outcome :=
  accessCell s (s.cfg.addr s.pos.k s.pos.r s.pos.c) fun w =>
    .next ((s.writeOutput (w &&& s.cfg.layout.rgbMask ||| s.ctl false false s.cfg.oeOff)).setPos
      (s.pos.latch (w &&& s.cfg.layout.rgbMask)))

/-- The position after a clock pulse (R185). -/
def Pos.afterClock (q : Pos) (cols : Nat) : Pos :=
  if q.c + 1 < cols then { q with c := q.c + 1, phase := .shiftLo } else { q with phase := .strobeHi }

/-- `SHIFT_HI` (R185): the latched data again, clock high. -/
def scanShiftHi (s : State) : State :=
  (s.writeOutput (s.pos.cur ||| s.ctl true false s.cfg.oeOff)).setPos (s.pos.afterClock s.cfg.cols)

/-- The position with another phase next. -/
def Pos.toPhase (q : Pos) (ph : Phase) : Pos := { q with phase := ph }

/-- `STROBE_HI` (R186). -/
def scanStrobeHi (s : State) : State :=
  (s.writeOutput (s.ctl false true s.cfg.oeOff)).setPos (s.pos.toPhase .strobeLo)

/-- `STROBE_LO` (R187). -/
def scanStrobeLo (s : State) : State :=
  (s.writeOutput (s.ctl false false s.cfg.oeOff)).setPos (s.pos.toPhase .oeAssert)

/-- `OE_ASSERT` (R188). -/
def scanOeAssert (s : State) : State :=
  (s.writeOutput (s.ctl false false s.cfg.oeOn)).setPos (s.pos.toPhase .dwell)

/-- `DWELL` (R189): `brightness` is read here. -/
def scanDwell (s : State) : State :=
  (s.loadDwell (s.cfg.dwellTicks s.pos.k s.brightness.toNat)).setPos (s.pos.toPhase .oeRelease)

/-- The position after a pass (R190): the next plane, else the next row, else the end of the frame. -/
def Pos.afterPass (q : Pos) (rows : Nat) : Pos :=
  if q.k + 1 < q.pFrame.toNat then { q with c := 0, phase := .shiftLo, k := q.k + 1 }
  else if q.r + 1 < rows then { q with c := 0, phase := .shiftLo, k := 0, r := q.r + 1 }
  else { q with c := 0, phase := .shiftLo, k := 0, r := 0, inFrame := false, frameReq := false }

/-- `OE_RELEASE` and advance (R190). -/
def scanOeRelease (s : State) : State :=
  (s.writeOutput (s.ctl false false s.cfg.oeOff)).setPos (s.pos.afterPass s.cfg.doubleRows)

/-- The step of a frame in progress (R191: exactly one is enabled). -/
def scanInFrame (s : State) : Outcome :=
  match s.pos.phase with
  | .shiftLo => scanShiftLo s
  | .shiftHi => .next (scanShiftHi s)
  | .strobeHi => .next (scanStrobeHi s)
  | .strobeLo => .next (scanStrobeLo s)
  | .oeAssert => .next (scanOeAssert s)
  | .dwell => .next (scanDwell s)
  | .oeRelease => .next (scanOeRelease s)

/-- Confirmation of termination (R249). -/
def scanConfirm (s : State) : State := s.setTask .joined

/-- A turn of SCAN: its one enabled step, or nothing where it has none. -/
def scanStep (s : State) : Outcome :=
  if s.scanReady = false then .next s
  else if s.pos.inFrame then scanInFrame s
  else if s.task = .stopping then .next (scanConfirm s)
  else .next (scanFrameStart s)

end Machine
end Sys2Proof
end

