-- ==== Sys2Proof/Machine/HostPort.lean ====
section
/-! DEFINITION. The host port: taking the next command word, the micro-steps and holds of the command in progress (R31, R73),
and whose turn it is (R69, R70). -/

namespace Sys2Proof
namespace Machine

/-- A command word taken on the idle port: the command it spells, or `ILLEGAL` with no other change (R113 (a)). -/
def issueWord (cw : CmdWord) (s : State) : Outcome :=
  match decode cw with
  | .ok i => exec i s
  | .reject _ => if s.io = .failed then .refused .notOperational else .next (s.complete .illegal)

/-- The idle port takes the next command word; with none to take HOST does nothing. -/
def hostIssue (s : State) : Outcome :=
  match s.port with
  | [] => .next s
  | cw :: _ => issueWord cw s.popPort

/-- A turn of HOST: the next micro-step of the command in progress, the end of a hold that has been lifted, or the next
command. A held command does nothing. -/
def hostStep (s : State) : Outcome :=
  match s.hostOp with
  | .idle => hostIssue s
  | .setPixel next planes x y r g b => microSetPixel next planes x y r g b s
  | .fill next planes r g b => microFill next planes r g b s
  | .clear next planes => microClear next planes s
  | .setPwmBits n => .next (applyPwmBits n s)
  | .waitFrame => if s.pos.frameReq then .next s else .next (s.complete .ok)
  | .waitJoin => if s.task = .joined then .next (s.complete .ok) else .next s

/-- Whose turn it is (R69, R267: every order is admitted). ENV's choices made in advance come first, whatever they are; after
them a turn goes to the one agent that can move, and where both can to a free draw. -/
def nextTurn (s : State) : Agent :=
  match s.env.turns with
  | a :: _ => a
  | [] =>
    match s.hostReady, s.scanReady with
    | true, false => .host
    | false, _ => .scan
    | true, true => Config.envTurn s.env.turnDraws

/-- The step of an agent. -/
def agentStep (a : Agent) (s : State) : Outcome :=
  match a with
  | .host => hostStep s
  | .scan => scanStep s

/-- The state in which the host issues the word cw next and HOST has the next turn. -/
def presentWord (cw : CmdWord) (s : State) : State :=
  { s with hostOp := .idle, port := cw :: s.port, env := { s.env with turns := .host :: s.env.turns } }

end Machine
end Sys2Proof
end

