-- ==== Sys2Proof/Machine/Step.lean ====
section
/-! DEFINITION. One step of the block: ENV says whose turn it is and that agent takes one atomic step (R11, R69). -/

namespace Sys2Proof
namespace Machine

/-- One step. -/
def step (s : State) : Host.Outcome State Fault Refusal := agentStep (nextTurn s) s.takeTurn

/-- The block has no program counter (R21): its commands arrive on the host port. This places the command word of a table
word as the next one the host issues, on an idle port, and gives HOST the next turn, so that the very next step takes it. -/
def State.withFetchWord (s : State) (nbits w : Nat) : State := presentWord (tableWord nbits w) s

end Machine
end Sys2Proof
end

