-- ==== Sys2Proof/Safety.lean ====
section
/-! DEFINITION. The terms claims are stated in: runs of one agent and of both, the frame as R181 writes it, the invariant of
the block, and what an output word may hold (R95). -/

namespace Sys2Proof
namespace Machine

/-- n turns of a step function, stopping at the first that is no next state. -/
def iterate (f : State → Outcome) (n : Nat) (s : State) : Outcome :=
  match n with
  | 0 => .next s
  | k + 1 =>
    match f s with
    | .next t => iterate f k t
    | .fault why => .fault why
    | .refused why => .refused why

/-- The agents of a list move one after the other, each one atomic step (R69). -/
def runAgents (order : List Agent) (s : State) : Outcome :=
  match order with
  | [] => .next s
  | a :: rest =>
    match agentStep a s with
    | .next t => runAgents rest t
    | .fault why => .fault why
    | .refused why => .refused why

/-- The state with other turns made in advance. -/
def State.withTurns (s : State) (turns : List Agent) : State := { s with env := { s.env with turns := turns } }

/-- The next state of an outcome, if it is one. -/
def nextOf (o : Outcome) : Option State :=
  match o with
  | .next t => some t
  | .fault _ => none
  | .refused _ => none

/-- An outcome with its next state changed. -/
def mapNext (g : State → State) (o : Outcome) : Outcome :=
  match o with
  | .next t => .next (g t)
  | .fault why => .fault why
  | .refused why => .refused why

/-- The host port can take a command: the block is operational and the port idle (R31, R281). -/
abbrev PortFree (s : State) : Prop := s.io = .ready ∧ s.hostOp = .idle

/-- A command is admitted in a state (R192, R246, R248, R281). -/
abbrev Admitted (i : Instr) (s : State) : Prop :=
  PortFree s ∧
    (i = .updateScreen → (s.task = .created ∨ s.task = .joined) ∧ s.pos.inFrame = false) ∧
    (i = .start → s.task = .created) ∧ (i = .stop → s.task = .running)

/-- The events of one column in the pass of row r and plane k (R181). -/
def columnEvents (c : Config) (fb : Memory) (r k col : Nat) : List Event :=
  let cur := fb.read (c.addr k r col) &&& c.layout.rgbMask
  [.write (cur ||| c.layout.ctl r false false c.oeOff), .write (cur ||| c.layout.ctl r true false c.oeOff)]

/-- The events that end the pass of row r and plane k at brightness br (R181). -/
def passTail (c : Config) (br r k : Nat) : List Event :=
  [.write (c.layout.ctl r false true c.oeOff), .write (c.layout.ctl r false false c.oeOff),
   .write (c.layout.ctl r false false c.oeOn), .dwell (c.dwellUnit * br * 2 ^ k),
   .write (c.layout.ctl r false false c.oeOff)]

/-- The pass of row r and plane k (R181). -/
def passEvents (c : Config) (fb : Memory) (br r k : Nat) : List Event :=
  (List.range c.cols).flatMap (columnEvents c fb r k) ++ passTail c br r k

/-- One frame of p planes at brightness br over a framebuffer that does not change: R181, rows outermost, then planes, then
columns. -/
def frameEvents (c : Config) (fb : Memory) (br p : Nat) : List Event :=
  (List.range c.doubleRows).flatMap fun r => (List.range p).flatMap fun k => passEvents c fb br r k

/-- The SCAN steps of one frame of p planes after its start (R191). -/
def frameSteps (c : Config) (p : Nat) : Nat := c.doubleRows * p * (2 * c.cols + 5)

/-- The words among some events. -/
def writesOf (es : List Event) : List Word :=
  es.filterMap fun e => match e with
    | .write w => some w
    | .dwell _ => none

/-- The dwells among some events. -/
def dwellsOf (es : List Event) : List Nat :=
  es.filterMap fun e => match e with
    | .write _ => none
    | .dwell d => some d

/-- An output word as R95 asks: every unused bit and every input field 0. -/
def CleanWord (L : Layout) (w : Word) : Prop := w &&& ~~~ L.usedMask = 0#32 ∧ w &&& L.inMask = 0#32

/-- Every word written so far is clean (R95). -/
def CleanTrace (s : State) : Prop := ∀ w ∈ writesOf s.trace, CleanWord s.cfg.layout w

/-- The command in progress is one the port can hold in this state (R31, R152, R156, R192, R211, R248). -/
def HostOpOk (s : State) : Prop :=
  match s.hostOp with
  | .idle => True
  | .setPixel next planes x y _ _ _ =>
    planes = s.pwmBits.toNat ∧ next < planes ∧ x < s.cfg.cols ∧ y < 2 * s.cfg.doubleRows
  | .fill next planes _ _ _ => planes = s.pwmBits.toNat ∧ next < planes * planeCells s.cfg
  | .clear next planes => planes = s.pwmBits.toNat ∧ next < planes * planeCells s.cfg
  | .setPwmBits n => 1 ≤ n.toNat ∧ n.toNat ≤ 11
  | .waitFrame => s.task = .created ∨ s.task = .joined
  | .waitJoin => s.task = .stopping ∨ s.task = .joined

/-- The sequencer position is one R30 allows, and a frame in progress has the plane count sampled at its start, which is
still the current one (R195). -/
structure PosOk (s : State) : Prop where
  row : s.pos.r < s.cfg.doubleRows
  plane : s.pos.k < 11
  column : s.pos.c < s.cfg.cols
  colours : s.pos.cur &&& ~~~ s.cfg.layout.rgbMask = 0#32
  sampled : 1 ≤ s.pos.pFrame.toNat ∧ s.pos.pFrame.toNat ≤ 11
  frame : s.pos.inFrame = true → s.pos.k < s.pos.pFrame.toNat ∧ s.pos.pFrame = s.pwmBits

/-- Who waits for whom (R192, R245 to R249): a request has a waiting host, a stopping task too, and a frame in progress
belongs to the task or to a request. -/
structure ControlOk (s : State) : Prop where
  request : s.pos.frameReq = true → s.hostOp = .waitFrame
  stopping : s.task = .stopping → s.hostOp = .waitJoin
  frame : s.pos.inFrame = true → s.task = .running ∨ s.task = .stopping ∨ s.pos.frameReq = true

/-- The invariant of the block: parameters of a block (R291), the canonical framebuffer with only triplet bits and dark
inactive planes (R24), legal registers (R26, R28), and the three conditions above. -/
structure BlockInv (s : State) : Prop where
  params : s.cfg.wf = true
  canonical : s.fb.wf = true
  triplets : ∀ a, s.fb.read a &&& ~~~ s.cfg.layout.rgbMask = 0#32
  inactive : ∀ a, s.pwmBits.toNat * planeCells s.cfg ≤ a → s.fb.read a = 0#32
  planes : 1 ≤ s.pwmBits.toNat ∧ s.pwmBits.toNat ≤ 11
  level : 1 ≤ s.brightness.toNat ∧ s.brightness.toNat ≤ 10
  pos : PosOk s
  hostOp : HostOpOk s
  control : ControlOk s

/-- What the output events so far have put on the panel, read from them alone; it is no state of the block. -/
structure Panel where
  /-- the words clocked in, newest first -/
  shifted : List Word
  /-- the words of the row latched at the last strobe pulse, column 0 first -/
  latched : List Word
  /-- the word written last -/
  shown : Word
deriving DecidableEq, Repr

/-- The word w raises bit `pos` of the word written last. -/
def Panel.raises (q : Panel) (w : Word) (pos : Nat) : Bool := w.getLsbD pos && !q.shown.getLsbD pos

/-- The panel after one event: the word that raises the clock is clocked in (R185), the word that raises the strobe latches the
last C words clocked in as the row (R187). DESIGN CHOICE (log entry 20): that it is the raising word that counts. -/
def Panel.next (c : Config) (q : Panel) (e : Event) : Panel :=
  match e with
  | .write w =>
    { shifted := if q.raises w c.layout.clock then w :: q.shifted else q.shifted
      latched := if q.raises w c.layout.strobe then (q.shifted.take c.cols).reverse else q.latched
      shown := w }
  | .dwell _ => q

/-- The panel lights bit `bit` of column `col` in row r: output-enable is asserted, the row address is r, and the bit is set in
the latched row (R188). -/
def Panel.lights (c : Config) (q : Panel) (r col bit : Nat) : Bool :=
  (q.shown.getLsbD c.layout.outputEnable == c.oeOn) && decide (c.layout.getField q.shown .row = r) &&
    (q.latched.getD col 0#32).getLsbD bit

/-- The ticks for which bit `bit` of column `col` in row r is lit during some events, from a panel q on (R194): the dwells that
find it lit. -/
def litTicks (c : Config) (r col bit : Nat) (q : Panel) (es : List Event) : Nat :=
  match es with
  | [] => 0
  | .write w :: rest => litTicks c r col bit (q.next c (.write w)) rest
  | .dwell d :: rest => (if q.lights c r col bit then d else 0) + litTicks c r col bit q rest

/-- The output register holds the word of the newest `Write` event, where there is one (R34). -/
def OutputRegShown (s : State) : Prop := ∀ w, (writesOf s.trace).head? = some w → s.outputReg = w

/-- The one cell the micro-step of the command in progress writes, if it is a pixel command (R152, R156, R157). -/
def cellInHand (s : State) : Option Nat :=
  match s.hostOp with
  | .setPixel k _ x y _ _ _ => some (pixelCell s.cfg k x y)
  | .fill next _ _ _ _ => some next
  | .clear next _ => some next
  | .idle | .setPwmBits _ | .waitFrame | .waitJoin => none

/-- HOST's next step is the one step in which a valid `SetPWMBits`, held or just issued, clears the framebuffer outside a
frame (R211). -/
def ClearsAll (s : State) : Prop :=
  s.pos.inFrame = false ∧
    ((∃ p, s.hostOp = .setPwmBits p) ∨
      (s.hostOp = .idle ∧ ∃ cw rest n, s.port = cw :: rest ∧ decode cw = .ok (.setPwmBits n) ∧ 1 ≤ n ∧ n ≤ 11))

/-- The value the plane bits of a channel spell (R102, R104). -/
def reconstructed (c : Config) (v : Byte) (p : Nat) : Nat :=
  ((List.range p).map fun k => if c.planeBit v p k then 2 ^ k else 0).sum

end Machine
end Sys2Proof
end

