-- ==== Sys2Proof/Certificates/Slice0/Obligations.lean ====
section
/-! DEFINITION. The statements for the provers, grouped as the spec's files are: the host port and the encoding, construction,
the bit layout, channel values, pixel commands, configuration commands, the sequencer, task control, and the rules about the
whole machine. -/

open Sys2Proof Sys2Proof.Machine

/-! ### The host port, the encoding and the step -/

/-- R109 to R113: every word of V90 to V99 of 95_test_vectors.md, all twelve commands among them, decodes to its command, and
the illegal words to their rejections. The command word is the spec's decision D20. -/
def Obligations.SpecWordsDecode : Prop :=
  decode 0x1000030011FF8000#64 = .ok (.setPixel 3 17 255#8 128#8 0#8) ∧
  decode 0x10FFFFFFFF010203#64 = .ok (.setPixel (-1) (-1) 1#8 2#8 3#8) ∧
  decode 0x2000000000FF8040#64 = .ok (.fill 255#8 128#8 64#8) ∧
  decode 0x3000000000000000#64 = .ok .clear ∧
  decode 0x4000000000000000#64 = .ok .updateScreen ∧
  decode 0x5000030000000000#64 = .ok (.setPwmBits 3) ∧
  decode 0x50000C0000000000#64 = .ok (.setPwmBits 12) ∧
  decode 0x50FFFF0000000000#64 = .ok (.setPwmBits (-1)) ∧
  decode 0x6000000000000000#64 = .ok .incBright ∧
  decode 0x7000000000000000#64 = .ok .decBright ∧
  decode 0x8000000000000000#64 = .ok .getInput ∧
  decode 0x9000000000000000#64 = .ok .getWidth ∧
  decode 0xA000000000000000#64 = .ok .getHeight ∧
  decode 0xB000000000000000#64 = .ok .start ∧
  decode 0xC000000000000000#64 = .ok .stop ∧
  decode 0x0000000000000000#64 = .reject .noSuchOp ∧
  decode 0xD000000000000000#64 = .reject .noSuchOp ∧
  decode 0x1100000000000000#64 = .reject .zNotZero ∧
  decode 0x3000000000000001#64 = .reject .unusedNotZero ∧
  decode 0x2000010000000000#64 = .reject .unusedNotZero

/-- R110 to R112: decoding the word of a command whose integers fit their fields gives the command back. The command word is
the spec's decision D20, the encoder the model's. -/
def Obligations.DecodeInvertsEncode : Prop :=
  ∀ i : Instr, i.wf = true → decode (encode i) = .ok i

/-- R111: a word spells a command exactly when it meets the mask and match of some row, and then of the decoded command's
row only. The word is the spec's decision D20. -/
def Obligations.DecodeAcceptsExactlyTheTableRows : Prop :=
  ∀ cw : CmdWord,
    ((∃ i, decode cw = .ok i) ↔ ∃ o : Opcode, cw &&& o.mask = o.matchBits) ∧
    ∀ i, decode cw = .ok i → ∀ o : Opcode, cw &&& o.mask = o.matchBits ↔ o = i.opcode

/-- R112: the operands a decoded word carries, and that no bit of it is lost: the command's word is the word decoded. The
word is the spec's decision D20. -/
def Obligations.DecodedOperandsAreTheWordsFields : Prop :=
  ∀ cw : CmdWord,
    (∀ x y r g b, decode cw = .ok (.setPixel x y r g b) →
      x = (cw.extractLsb' 40 16).toInt ∧ y = (cw.extractLsb' 24 16).toInt ∧
      r = cw.extractLsb' 16 8 ∧ g = cw.extractLsb' 8 8 ∧ b = cw.extractLsb' 0 8) ∧
    (∀ n, decode cw = .ok (.setPwmBits n) → n = (cw.extractLsb' 40 16).toInt) ∧
    (∀ r g b, decode cw = .ok (.fill r g b) →
      r = cw.extractLsb' 16 8 ∧ g = cw.extractLsb' 8 8 ∧ b = cw.extractLsb' 0 8) ∧
    (∀ i, decode cw = .ok i → i.wf = true ∧ encode i = cw)

/-- A step on HOST's turn takes the word at the head of the port when the port is idle, and does what its command does;
`withFetchWord` makes the very next step do so. The queue of words and the list of turns are the model's (log entries 4
and 6). -/
def Obligations.StepRunsTheDecodedCommand : Prop :=
  (∀ (s : State) (cw : CmdWord) (rest : List CmdWord) (i : Instr),
    nextTurn s = .host → s.hostOp = .idle → s.port = cw :: rest → decode cw = .ok i →
    step s = exec i { s with port := rest, env := s.env.afterTurn }) ∧
  (∀ (s : State) (nbits w : Nat) (i : Instr), decode (tableWord nbits w) = .ok i →
    step (s.withFetchWord nbits w) = exec i { s with hostOp := .idle })

/-- Whose turn it is, and that a turn is one agent's one step (R11, R69). How ENV's choice is laid down is the model's (log
entry 4); where neither ENV's list nor the state decides it is a free value. -/
def Obligations.StepGivesTheTurnToOneAgent : Prop :=
  ∀ s : State,
    (nextTurn s = .scan → step s = scanStep { s with env := s.env.afterTurn }) ∧
    (nextTurn s = .host → step s = hostStep { s with env := s.env.afterTurn }) ∧
    (∀ a rest, s.env.turns = a :: rest → nextTurn s = a) ∧
    (s.env.turns = [] → s.hostReady = true → s.scanReady = false → nextTurn s = .host) ∧
    (s.env.turns = [] → s.hostReady = false → s.scanReady = true → nextTurn s = .scan)

/-- R69, R70: every interleaving of the two agents' atomic steps is a run of the machine. The list that names it is the
model's (log entry 4), the consistency model the spec's decision D18. -/
def Obligations.EveryInterleavingIsARun : Prop :=
  ∀ (order later : List Agent) (s : State),
    iterate step order.length (s.withTurns (order ++ later)) =
      mapNext (fun t => t.withTurns later) (runAgents order s)

/-- R113 (a): a word that spells no command completes with `ILLEGAL` and changes no state of the block. The word is the
spec's decision D20. -/
def Obligations.IllegalWordChangesNothing : Prop :=
  ∀ (s : State) (cw : CmdWord) (rest : List CmdWord) (why : Reject),
    nextTurn s = .host → PortFree s → s.port = cw :: rest → decode cw = .reject why →
    step s = .next { s with port := rest, env := s.env.afterTurn, results := .illegal :: s.results }

/-- R281 with R192, R246, R248: a command runs to a next state exactly where the table admits it, and has no step anywhere
else; none faults. -/
def Obligations.CommandsRunExactlyWhereAdmitted : Prop :=
  ∀ (i : Instr) (s : State),
    ((∃ t, exec i s = .next t) ↔ Admitted i s) ∧
    (¬ Admitted i s → ∃ why, exec i s = .refused why) ∧
    (s.io = .failed → exec i s = .refused .notOperational) ∧
    (PortFree s → s.task ≠ .created → exec .start s = .refused .startNotAdmitted) ∧
    (PortFree s → s.task ≠ .running → exec .stop s = .refused .stopNotAdmitted) ∧
    (PortFree s → s.task = .running ∨ s.task = .stopping → exec .updateScreen s = .refused .updateScreenNotAdmitted)

/-! ### Construction -/

/-- R291: the construction sequence, in its order, which is the spec's decision D29. That `c.wf`, the check of step 1, takes in
the constraints of R6 and R7 which R291 does not list (on LUT, RAMP, DWELL_UNIT and PANEL_ROWS) is the model's choice (log
entry 9). -/
def Obligations.ConstructionFollowsTheSequence : Prop :=
  ∀ c : Config,
    (c.wf = false → construct c = .notABlock) ∧
    (c.wf = true → c.foldOk = false → construct c = .fatal .foldGeometry) ∧
    (c.wf = true → c.foldOk = true → c.ioInitOk = false → construct c = .fatal .ioInitFailed) ∧
    (c.wf = true → c.foldOk = true → c.ioInitOk = true →
      ∃ s, construct c = .built s ∧ s.cfg = c ∧ s.io = .ready ∧ (∀ k r col, s.cell k r col = 0#32) ∧
        s.pwmBits = c.pwmBitsReset ∧ s.brightness = c.brightnessReset ∧ s.task = .created ∧
        s.pos.inFrame = false ∧ s.pos.frameReq = false ∧ s.hostOp = .idle ∧ s.outputTrace = [])

/-- R235: which parameters the fold's construction check lets through. -/
def Obligations.FoldGeometryCheck : Prop :=
  ∀ (c : Config) (n : Nat), c.wf = true → c.fold = .square n →
    ((n % 2 = 0 ∧ c.cols = 2 * n ∧ 2 * c.doubleRows = n / 2) → construct c ≠ .fatal .foldGeometry) ∧
    (¬ (n % 2 = 0 ∧ c.cols = 2 * n ∧ 2 * c.doubleRows = n / 2) → construct c = .fatal .foldGeometry)

/-- R40, R34: what every state right after reset holds, for all parameters; `State.reset` is the one with the reference
parameters (the model's choice, log entry 1). The values of `cur`, `p_frame`, the external registers and the dwell timer are
the model's choice too (log entry 3) and are left out. -/
def Obligations.ResetLeavesTheSpecsValues : Prop :=
  (∀ c : Config,
    (∀ k r col, (State.initial c).cell k r col = 0#32) ∧ (State.initial c).pwmBits = c.pwmBitsReset ∧
    (State.initial c).brightness = c.brightnessReset ∧ (State.initial c).task = .created ∧
    (State.initial c).io = .ready ∧ (State.initial c).pos.inFrame = false ∧ (State.initial c).pos.frameReq = false ∧
    (State.initial c).pos.r = 0 ∧ (State.initial c).pos.k = 0 ∧ (State.initial c).pos.c = 0 ∧
    (State.initial c).pos.phase = .shiftLo ∧ (State.initial c).hostOp = .idle ∧ (State.initial c).outputTrace = []) ∧
  State.reset = State.initial Config.reference ∧ construct Config.reference = .built State.reset

/-- R292: after a failed construction no command is admitted, SCAN has no step, and no step of the machine, whatever is on
the host port and whoever moves, writes anything to the output register or the trace, which starts empty. That a failed fold
check leaves `io = Failed` as well is the model's choice (log entry 9). -/
def Obligations.FailedBlockStaysDark : Prop :=
  (∀ s : State, s.io = .failed →
    (∀ i, exec i s = .refused .notOperational) ∧ scanStep s = .next s ∧
    (∀ t, step s = .next t → t.io = .failed ∧ t.trace = s.trace ∧ t.outputReg = s.outputReg)) ∧
  ∀ c : Config, (State.dead c).io = .failed ∧ (State.dead c).outputTrace = []

/-- R295, R290: a new construction is possible exactly when no task runs and no frame is in progress, and it leaves the block in
the reset state. The condition is the spec's own derivation (R295); that it is an operation over a state (log entry 9), and that
the host's words not yet issued and ENV's choices stay as they are (log entry 19), is the model's. -/
def Obligations.ReconstructionOnlyAtRest : Prop :=
  ∀ (c : Config) (s : State), c.wf = true → c.foldOk = true → c.ioInitOk = true →
    ((s.task = .created ∨ s.task = .joined) ∧ s.pos.inFrame = false →
      reconstruct c s = .next { State.initial c with port := s.port, env := s.env }) ∧
    (¬ ((s.task = .created ∨ s.task = .joined) ∧ s.pos.inFrame = false) →
      reconstruct c s = .refused .resetNotAdmitted)

/-! ### The bit layout -/

/-- R131: every field of an encoded record is its value modulo the field size, and no unused bit is set. For a negative value
the remainder is the spec's own derivation. -/
def Obligations.EncodedFieldsAreTruncatedSignals : Prop :=
  ∀ (L : Layout) (s : Signals), L.wf = true →
    (∀ f : WordField, (L.getField (L.encodeSignals s) f : Int) = s.get f % 2 ^ f.width) ∧
    L.encodeSignals s &&& ~~~ L.usedMask = 0#32

/-- R132: decoding gives every field, encoding what was decoded keeps exactly the used bits, and decoding what was encoded
gives every value modulo its field size. The last two are the spec's own derivations. -/
def Obligations.EncodeOfDecodeKeepsTheUsedBits : Prop :=
  ∀ (L : Layout) (w : Word) (s : Signals), L.wf = true →
    (∀ f : WordField, (L.decodeSignals w).get f = L.getField w f) ∧
    L.encodeSignals (L.decodeSignals w) = w &&& L.usedMask ∧
    ∀ f : WordField, (L.decodeSignals (L.encodeSignals s)).get f = s.get f % 2 ^ f.width

/-- R134: a field that is set reads back truncated, and no other bit changes. The two reading laws are the spec's own
derivation. -/
def Obligations.SetFieldChangesOnlyItsField : Prop :=
  ∀ (L : Layout) (w : Word) (f : WordField) (v : Int), L.wf = true →
    (L.getField (L.setField w f v) f : Int) = v % 2 ^ f.width ∧
    (∀ f' : WordField, f' ≠ f → L.getField (L.setField w f v) f' = L.getField w f') ∧
    L.setField w f v &&& ~~~ L.mask f = w &&& ~~~ L.mask f

/-- R97, R99, R131: a cell's two triplets together with the control part are the encoding of the named signals; the row
address is truncated to 4 bits and the input fields are 0 (the spec's decision D19). `Ctl` is the spec's own derivation. -/
def Obligations.OutputWordsAreEncodedSignals : Prop :=
  ∀ (L : Layout) (ru gu bu rl gl bl clk stb oe : Bool) (rr : Nat),
    (L.t1 ru gu bu ||| L.t2 rl gl bl) ||| L.ctl rr clk stb oe =
      L.encodeSignals
        { outputEnable := oe.toNat, clock := clk.toNat, strobe := stb.toNat, row := rr,
          r1 := ru.toNat, g1 := gu.toNat, b1 := bu.toNat, r2 := rl.toNat, g2 := gl.toNat, b2 := bl.toNat }

/-- R137: the six input signals are the bits of their fields, which `GetField` reads too. -/
def Obligations.DecodeInputReadsTheInputFields : Prop :=
  ∀ (L : Layout) (w : Word),
    (L.decodeInput w).sw1 = decide (L.getField w .sw1 = 1) ∧ (L.decodeInput w).sw2 = decide (L.getField w .sw2 = 1) ∧
    (L.decodeInput w).joy0 = decide (L.getField w .joy0 = 1) ∧ (L.decodeInput w).joy1 = decide (L.getField w .joy1 = 1) ∧
    (L.decodeInput w).joy2 = decide (L.getField w .joy2 = 1) ∧ (L.decodeInput w).joy3 = decide (L.getField w .joy3 = 1)

/-! ### Channel values -/

/-- R101: the three properties of every admissible ramp, and the shift ramp, which is the spec's decision D5. -/
def Obligations.RampScalesToPBits : Prop :=
  (∀ (c : Config) (p : Nat), c.wf = true → 1 ≤ p → p ≤ 11 →
    c.ramp.apply 0#8 p = 0 ∧ (∀ v, c.ramp.apply v p < 2 ^ p) ∧
    ∀ v1 v2 : Byte, v1.toNat ≤ v2.toNat → c.ramp.apply v1 p ≤ c.ramp.apply v2 p) ∧
  (∀ (v : Byte) (p : Nat), (p ≤ 8 → Ramp.shift.apply v p = v.toNat >>> (8 - p)) ∧
    (9 ≤ p → Ramp.shift.apply v p = v.toNat <<< (p - 8)))

/-- R104: the plane bits of a channel value, weighted with `2^k`, spell the ramp of the mapped value, and a greater
channel value never spells a smaller one, with luminance correction and without. -/
def Obligations.DutyCycleIsMonotone : Prop :=
  ∀ (c : Config) (p : Nat), c.wf = true → 1 ≤ p → p ≤ 11 →
    (∀ v, reconstructed c v p = c.ramp.apply (c.channelMap v) p) ∧
    ∀ v1 v2 : Byte, v1.toNat ≤ v2.toNat → reconstructed c v1 p ≤ reconstructed c v2 p

/-! ### Pixel commands -/

/-- R233: the fold maps the logical square by its two formulas, one to one onto the physical strip, and the base driver's
own check always passes. That the mapping is a bijection is the spec's own derivation. -/
def Obligations.FoldMapsTheSquare : Prop :=
  ∀ (c : Config) (n : Nat), c.fold = .square n → c.foldOk = true →
    (∀ x y : Int,
      (0 ≤ x → x < n → 0 ≤ y → y < (n / 2 : Nat) → locatePixel c x y = some (x.toNat, y.toNat)) ∧
      (0 ≤ x → x < n → (n / 2 : Nat) ≤ y → y < n →
        locatePixel c x y = some (((2 * (n : Int) - 1) - x).toNat, (((n : Int) - 1) - y).toNat))) ∧
    (∀ x y x' y' q, locatePixel c x y = some q → locatePixel c x' y' = some q → x = x' ∧ y = y') ∧
    (∀ px py, px < c.cols → py < 2 * c.doubleRows →
      ∃ x y : Int, 0 ≤ x ∧ x < n ∧ 0 ≤ y ∧ y < n ∧ locatePixel c x y = some (px, py))

/-- R151, R232: a `SetPixel` outside the surface, physical without the fold and logical with it, completes at once with `OK`
and changes nothing; without the fold a coordinate inside is the physical pixel itself. -/
def Obligations.OutOfRangePixelsAreDropped : Prop :=
  ∀ (s : State) (x y : Int) (r g b : Byte), PortFree s →
    (s.cfg.fold = .off → x < 0 ∨ (s.cfg.cols : Int) ≤ x ∨ y < 0 ∨ 2 * (s.cfg.doubleRows : Int) ≤ y →
      exec (.setPixel x y r g b) s = .next { s with results := .ok :: s.results }) ∧
    (∀ n : Nat, s.cfg.fold = .square n → x < 0 ∨ (n : Int) ≤ x ∨ y < 0 ∨ (n : Int) ≤ y →
      exec (.setPixel x y r g b) s = .next { s with results := .ok :: s.results }) ∧
    (s.cfg.fold = .off → 0 ≤ x → x < s.cfg.cols → 0 ≤ y → y < 2 * (s.cfg.doubleRows : Int) →
      locatePixel s.cfg x y = some (x.toNat, y.toNat))

/-- R152: an in-range `SetPixel` samples the plane count and starts at plane 0; one plane micro-step is one atomic
read-modify-write of one cell, in which only the chosen triplet changes; after the last plane the command completes. The
ascending order of the planes is the spec's decision D21. -/
def Obligations.SetPixelMicroStep : Prop :=
  (∀ (s : State) (x y : Int) (px py : Nat) (r g b : Byte), PortFree s → 1 ≤ s.pwmBits.toNat →
    locatePixel s.cfg x y = some (px, py) →
    exec (.setPixel x y r g b) s = .next { s with hostOp := .setPixel 0 s.pwmBits.toNat px py r g b }) ∧
  ∀ (s : State) (k p x y : Nat) (r g b : Byte), s.hostOp = .setPixel k p x y r g b →
    x < s.cfg.cols → y < 2 * s.cfg.doubleRows → k < p → p ≤ 11 →
    ∃ w' : Word,
      (y < s.cfg.doubleRows → w' = (s.cell k (y % s.cfg.doubleRows) x &&& ~~~ s.cfg.layout.rgb1Mask) |||
        s.cfg.layout.t1 (s.cfg.planeBit r p k) (s.cfg.planeBit g p k) (s.cfg.planeBit b p k)) ∧
      (s.cfg.doubleRows ≤ y → w' = (s.cell k (y % s.cfg.doubleRows) x &&& ~~~ s.cfg.layout.rgb2Mask) |||
        s.cfg.layout.t2 (s.cfg.planeBit r p k) (s.cfg.planeBit g p k) (s.cfg.planeBit b p k)) ∧
      (k + 1 < p → hostStep s = .next
        { s with fb := s.fb.write (s.cfg.addr k (y % s.cfg.doubleRows) x) w', hostOp := .setPixel (k + 1) p x y r g b }) ∧
      (k + 1 = p → hostStep s = .next
        { s with fb := s.fb.write (s.cfg.addr k (y % s.cfg.doubleRows) x) w', hostOp := .idle,
                 results := .ok :: s.results })

/-- R150, R153: an in-range `SetPixel` is taken, its micro-steps run, and it completes with `OK`: in every active plane the
pixel has the plane bits of its colour, the rest of those cells and every other cell are as before, and nothing else of the
state has changed. The spec's own derivation (R153). SCAN may move in between: it writes no cell (R182). -/
def Obligations.SetPixelDrawsThePixel : Prop :=
  ∀ (s : State) (x y : Int) (px py : Nat) (r g b : Byte), BlockInv s → PortFree s → locatePixel s.cfg x y = some (px, py) →
    ∃ t u : State,
      exec (.setPixel x y r g b) s = .next t ∧
      t = { s with hostOp := .setPixel 0 s.pwmBits.toNat px py r g b } ∧
      iterate hostStep s.pwmBits.toNat t = .next u ∧
      u = { s with fb := u.fb, results := .ok :: s.results } ∧
      (∀ k, k < s.pwmBits.toNat →
        planeBits s.cfg u.fb px py k =
          (s.cfg.planeBit r s.pwmBits.toNat k, s.cfg.planeBit g s.pwmBits.toNat k, s.cfg.planeBit b s.pwmBits.toNat k) ∧
        u.fb.read (pixelCell s.cfg k px py) &&& ~~~ tripletMask s.cfg py =
          s.fb.read (pixelCell s.cfg k px py) &&& ~~~ tripletMask s.cfg py) ∧
      (∀ a, (∀ k, k < s.pwmBits.toNat → a ≠ pixelCell s.cfg k px py) → u.fb.read a = s.fb.read a)

/-- R155, R234: a `Fill` is taken, its micro-steps run, and it completes with `OK`: every cell of every active plane is
`FillWord(k)`, every other cell is as before, and nothing else of the state has changed. -/
def Obligations.FillPaintsEveryActiveCell : Prop :=
  ∀ (s : State) (r g b : Byte), BlockInv s → PortFree s →
    ∃ t u : State,
      exec (.fill r g b) s = .next t ∧ t = { s with hostOp := .fill 0 s.pwmBits.toNat r g b } ∧
      iterate hostStep (s.pwmBits.toNat * planeCells s.cfg) t = .next u ∧
      u = { s with fb := u.fb, results := .ok :: s.results } ∧
      (∀ k rr col, k < s.pwmBits.toNat → rr < s.cfg.doubleRows → col < s.cfg.cols →
        u.cell k rr col =
          s.cfg.layout.t1 (s.cfg.planeBit r s.pwmBits.toNat k) (s.cfg.planeBit g s.pwmBits.toNat k)
              (s.cfg.planeBit b s.pwmBits.toNat k) |||
            s.cfg.layout.t2 (s.cfg.planeBit r s.pwmBits.toNat k) (s.cfg.planeBit g s.pwmBits.toNat k)
              (s.cfg.planeBit b s.pwmBits.toNat k)) ∧
      (∀ a, s.pwmBits.toNat * planeCells s.cfg ≤ a → u.fb.read a = s.fb.read a)

/-- R155, R115 (the spec's own derivation): a `Fill` leaves at every pixel what a `SetPixel` of that colour would leave there. -/
def Obligations.FillWordIsBothPixelsOfTheCell : Prop :=
  ∀ (c : Config) (w : Word) (p k y : Nat) (r g b : Byte), c.layout.wf = true → y < c.doubleRows →
    w &&& ~~~ c.layout.rgbMask = 0#32 →
    setTriplet c (setTriplet c w y p k r g b) (y + c.doubleRows) p k r g b = fillWord c p k r g b

/-- R157: a `Clear` is taken, its micro-steps run, and it completes with `OK`: the whole framebuffer is zero, from any prior
contents, and nothing else of the state has changed. -/
def Obligations.ClearDarkensTheFramebuffer : Prop :=
  ∀ s : State, BlockInv s → PortFree s →
    ∃ t u : State,
      exec .clear s = .next t ∧ t = { s with hostOp := .clear 0 s.pwmBits.toNat } ∧
      iterate hostStep (s.pwmBits.toNat * planeCells s.cfg) t = .next u ∧
      u = { s with fb := u.fb, results := .ok :: s.results } ∧ (∀ a, u.fb.read a = 0#32) ∧
      ∀ x y k, planeBits s.cfg u.fb x y k = (false, false, false)

/-- R158, R159, R231: the two queries answer the surface size and change nothing. That the sizes without the fold are C and 2R
is the spec's own derivation (R158, R159); that a size of 2^32 or more is reduced to 32 bits is the model's (log entry 13). -/
def Obligations.SizeQueriesAnswerTheSurface : Prop :=
  ∀ s : State, PortFree s →
    (s.cfg.fold = .off →
      exec .getWidth s = .next { s with results := .okValue (BitVec.ofNat 32 s.cfg.cols) :: s.results } ∧
      exec .getHeight s = .next { s with results := .okValue (BitVec.ofNat 32 (2 * s.cfg.doubleRows)) :: s.results }) ∧
    (∀ n, s.cfg.fold = .square n →
      exec .getWidth s = .next { s with results := .okValue (BitVec.ofNat 32 n) :: s.results } ∧
      exec .getHeight s = .next { s with results := .okValue (BitVec.ofNat 32 n) :: s.results })

/-! ### Configuration and input commands -/

/-- R212: a plane count outside 1..11 fails at once, frame in progress or not, and changes nothing. -/
def Obligations.InvalidPlaneCountFails : Prop :=
  ∀ (s : State) (n : Int), PortFree s → n < 1 ∨ 11 < n →
    exec (.setPwmBits n) s = .next { s with results := .fail .invalidPwmBits :: s.results }

/-- R211: outside a frame the plane count changes and every cell becomes 0 in one step; inside one the command is held,
changes nothing while the frame lasts, keeps the next frame from starting, and is done whole once the frame has ended. The
hold and the one step are the spec's decision D24. -/
def Obligations.ValidPlaneCountClearsAtAFrameBoundary : Prop :=
  ∀ (s : State) (n : Int) (p : BitVec 4), 1 ≤ n → n ≤ 11 → p = BitVec.ofNat 4 n.toNat →
    (PortFree s → s.pos.inFrame = false →
      exec (.setPwmBits n) s = .next { s with pwmBits := p, fb := [], results := .ok :: s.results }) ∧
    (PortFree s → s.pos.inFrame = true → exec (.setPwmBits n) s = .next { s with hostOp := .setPwmBits p }) ∧
    (s.hostOp = .setPwmBits p → s.pos.inFrame = true → hostStep s = .next s) ∧
    (s.hostOp = .setPwmBits p → s.pos.inFrame = false → s.task ≠ .stopping → scanStep s = .next s) ∧
    (s.hostOp = .setPwmBits p → s.pos.inFrame = false →
      hostStep s = .next { s with pwmBits := p, fb := [], hostOp := .idle, results := .ok :: s.results }) ∧
    p.toNat = n.toNat ∧ ∀ a, Memory.read [] a = 0#32

/-- R213, R214: one step up or down with the wrap at both ends; nothing else changes, in a frame or out of one. That no pixel
changes with the level is the spec's decision D6. -/
def Obligations.BrightnessStepsWrap : Prop :=
  ∀ s : State, PortFree s →
    (s.brightness = 10#4 → exec .incBright s = .next { s with brightness := 1#4, results := .ok :: s.results }) ∧
    (s.brightness ≠ 10#4 →
      exec .incBright s = .next { s with brightness := s.brightness + 1#4, results := .ok :: s.results }) ∧
    (s.brightness = 1#4 → exec .decBright s = .next { s with brightness := 10#4, results := .ok :: s.results }) ∧
    (s.brightness ≠ 1#4 →
      exec .decBright s = .next { s with brightness := s.brightness - 1#4, results := .ok :: s.results })

/-- R215 (the spec's own derivation): from a level in 1..10 both commands complete and stay in 1..10 by their closed forms,
either undoes the other, and ten of either come back to the level. -/
def Obligations.BrightnessLaws : Prop :=
  ∀ s : State, PortFree s → 1 ≤ s.brightness.toNat → s.brightness.toNat ≤ 10 →
    ∃ up down : State, exec .incBright s = .next up ∧ exec .decBright s = .next down ∧
      up.brightness.toNat = s.brightness.toNat % 10 + 1 ∧ down.brightness.toNat = (s.brightness.toNat + 8) % 10 + 1 ∧
      (∃ t, exec .decBright up = .next t ∧ t.brightness = s.brightness) ∧
      (∃ t, exec .incBright down = .next t ∧ t.brightness = s.brightness) ∧
      (∃ t, iterate (exec .incBright) 10 s = .next t ∧ t.brightness = s.brightness) ∧
      (∃ t, iterate (exec .decBright) 10 s = .next t ∧ t.brightness = s.brightness)

/-- R216, R217: `GetInput` returns the word ENV supplies, whole, and changes nothing of the block. Where ENV's list is empty
the word is a free value, a fresh one for each draw; nothing is said about it. How ENV's words are laid down is the model's (log
entry 5). -/
def Obligations.GetInputReturnsTheWordSupplied : Prop :=
  ∀ s : State, PortFree s →
    (∀ w ws, s.env.inputs = w :: ws →
      exec .getInput s =
        .next { s with inputReg := w, env := { s.env with inputs := ws }, results := .okValue w :: s.results }) ∧
    (s.env.inputs = [] →
      exec .getInput s =
        .next { s with inputReg := Config.envInput s.env.inputDraws,
                       env := { s.env with inputDraws := s.env.inputDraws + 1 },
                       results := .okValue (Config.envInput s.env.inputDraws) :: s.results })

/-! ### The sequencer -/

/-- R183: the frame start, where it is enabled: `pwm_bits` is sampled, the position set, and nothing else changes; with no
task and no request, or while a plane count change is held, it is not enabled. -/
def Obligations.FrameStartSamplesThePlaneCount : Prop :=
  ∀ s : State, s.io = .ready → s.pos.inFrame = false → s.task ≠ .stopping →
    ((s.task = .running ∨ s.pos.frameReq = true) → (∀ n, s.hostOp ≠ .setPwmBits n) →
      scanStep s = .next
        { s with pos := { s.pos with pFrame := s.pwmBits, r := 0, k := 0, c := 0, phase := .shiftLo, inFrame := true } }) ∧
    (¬ (s.task = .running ∨ s.pos.frameReq = true) → scanStep s = .next s) ∧
    (∀ n, s.hostOp = .setPwmBits n → scanStep s = .next s)

/-- R184, R185: the two steps of a column. Two writes with the same latched data are the spec's decision D22. -/
def Obligations.ColumnStepsWriteTheMaskedCellTwice : Prop :=
  ∀ s : State, s.io = .ready → s.pos.inFrame = true → s.pos.k < 11 → s.pos.r < s.cfg.doubleRows → s.pos.c < s.cfg.cols →
    (s.pos.phase = .shiftLo → ∀ cur w, cur = s.cell s.pos.k s.pos.r s.pos.c &&& s.cfg.layout.rgbMask →
      w = (cur ||| s.cfg.layout.ctl s.pos.r false false (!s.cfg.oeOn)) →
      scanStep s = .next
        { s with outputReg := w, trace := .write w :: s.trace, pos := { s.pos with cur := cur, phase := .shiftHi } }) ∧
    (s.pos.phase = .shiftHi → ∀ w, w = (s.pos.cur ||| s.cfg.layout.ctl s.pos.r true false (!s.cfg.oeOn)) →
      (s.pos.c + 1 = s.cfg.cols → scanStep s = .next
        { s with outputReg := w, trace := .write w :: s.trace, pos := { s.pos with phase := .strobeHi } }) ∧
      (s.pos.c + 1 < s.cfg.cols → scanStep s = .next
        { s with outputReg := w, trace := .write w :: s.trace,
                 pos := { s.pos with c := s.pos.c + 1, phase := .shiftLo } }))

/-- R186, R187, R188: the strobe pulse and the opening of the illumination window. The words are the spec's decision D22. -/
def Obligations.StrobePulsesAndOutputEnableOpens : Prop :=
  ∀ (s : State) (w : Word), s.io = .ready → s.pos.inFrame = true →
    (s.pos.phase = .strobeHi → w = s.cfg.layout.ctl s.pos.r false true (!s.cfg.oeOn) →
      scanStep s = .next
        { s with outputReg := w, trace := .write w :: s.trace, pos := { s.pos with phase := .strobeLo } }) ∧
    (s.pos.phase = .strobeLo → w = s.cfg.layout.ctl s.pos.r false false (!s.cfg.oeOn) →
      scanStep s = .next
        { s with outputReg := w, trace := .write w :: s.trace, pos := { s.pos with phase := .oeAssert } }) ∧
    (s.pos.phase = .oeAssert → w = s.cfg.layout.ctl s.pos.r false false s.cfg.oeOn →
      scanStep s = .next
        { s with outputReg := w, trace := .write w :: s.trace, pos := { s.pos with phase := .dwell } })

/-- R189: the dwell is loaded with `DWELL_UNIT * brightness * 2^k`, the brightness being read at this step. The formula
is the spec's decision D6. -/
def Obligations.DwellIsBinaryWeighted : Prop :=
  ∀ s : State, s.io = .ready → s.pos.inFrame = true → s.pos.phase = .dwell →
    ∀ d, d = s.cfg.dwellUnit * s.brightness.toNat * 2 ^ s.pos.k →
      scanStep s = .next { s with dwellTimer := d, trace := .dwell d :: s.trace, pos := { s.pos with phase := .oeRelease } }

/-- R190: output-enable is released and the position moves to the next plane, the next row or the end of the frame. -/
def Obligations.ReleaseAdvancesThePass : Prop :=
  ∀ (s : State) (w : Word), s.io = .ready → s.pos.inFrame = true → s.pos.phase = .oeRelease →
    w = s.cfg.layout.ctl s.pos.r false false (!s.cfg.oeOn) →
    (s.pos.k + 1 < s.pos.pFrame.toNat → scanStep s = .next
      { s with outputReg := w, trace := .write w :: s.trace,
               pos := { s.pos with c := 0, phase := .shiftLo, k := s.pos.k + 1 } }) ∧
    (s.pos.pFrame.toNat ≤ s.pos.k + 1 → s.pos.r + 1 < s.cfg.doubleRows → scanStep s = .next
      { s with outputReg := w, trace := .write w :: s.trace,
               pos := { s.pos with c := 0, phase := .shiftLo, k := 0, r := s.pos.r + 1 } }) ∧
    (s.pos.pFrame.toNat ≤ s.pos.k + 1 → s.cfg.doubleRows ≤ s.pos.r + 1 → scanStep s = .next
      { s with outputReg := w, trace := .write w :: s.trace,
               pos := { s.pos with c := 0, phase := .shiftLo, k := 0, r := 0, inFrame := false, frameReq := false } })

/-- R181: the SCAN steps of a frame, run with nothing else moving, write exactly the event sequence of R181's pseudocode, and
end the frame; the framebuffer and the registers are as before. The exact sequence is the spec's decision D22. -/
def Obligations.FrameRealisesTheSequence : Prop :=
  ∀ s : State, BlockInv s → s.io = .ready → s.pos.inFrame = false → s.task ≠ .stopping → s.frameStartEnabled = true →
    ∃ t : State, iterate scanStep (1 + frameSteps s.cfg s.pwmBits.toNat) s = .next t ∧
      t.outputTrace = s.outputTrace ++ frameEvents s.cfg s.fb s.brightness.toNat s.pwmBits.toNat ∧
      t.pos.inFrame = false ∧ t.pos.frameReq = false ∧
      t = { s with pos := t.pos, outputReg := t.outputReg, dwellTimer := t.dwellTimer, trace := t.trace }

/-- R193: the counts of one frame: writes, dwells, events, the total dwell, clock pulses, strobe pulses and the writes in
which output-enable is asserted. They are the spec's own derivation from the sequence of R181, which is its decision D22. -/
def Obligations.FrameCounts : Prop :=
  ∀ (c : Config) (fb : Memory) (br p : Nat),
    (writesOf (frameEvents c fb br p)).length = c.doubleRows * p * (2 * c.cols + 4) ∧
    (dwellsOf (frameEvents c fb br p)).length = c.doubleRows * p ∧
    (frameEvents c fb br p).length = frameSteps c p ∧
    (dwellsOf (frameEvents c fb br p)).sum = c.doubleRows * (c.dwellUnit * br * (2 ^ p - 1)) ∧
    (c.layout.wf = true →
      (writesOf (frameEvents c fb br p)).countP (fun w => w.getLsbD c.layout.clock) = c.doubleRows * p * c.cols ∧
      (writesOf (frameEvents c fb br p)).countP (fun w => w.getLsbD c.layout.strobe) = c.doubleRows * p ∧
      (writesOf (frameEvents c fb br p)).countP (fun w => w.getLsbD c.layout.outputEnable == c.oeOn) = c.doubleRows * p)

/-- R194 (the spec's own derivation): over the events of one frame, in which framebuffer and brightness do not change, a pixel
that was drawn is lit in each channel for `DWELL_UNIT * brightness * RAMP(ChannelMap(v), p)` ticks, whatever was on the panel
before. The lit time is read off the event list: the words clocked in before the strobe, the write that asserts output-enable
with the row's address, and the dwell that follows. The list is the spec's decision D22, the dwell D6; which edge of clock and
strobe counts is the model's (log entry 20). That SCAN streams exactly this list is `FrameRealisesTheSequence`. -/
def Obligations.LitTimeIsTheChannelLevel : Prop :=
  ∀ (c : Config) (fb : Memory) (br p x y : Nat) (r g b : Byte) (q : Panel), c.wf = true → 1 ≤ p → p ≤ 11 →
    x < c.cols → y < 2 * c.doubleRows →
    (∀ k, k < p → planeBits c fb x y k = (c.planeBit r p k, c.planeBit g p k, c.planeBit b p k)) →
    litTicks c (y % c.doubleRows) x (if y < c.doubleRows then c.layout.r1 else c.layout.r2) q (frameEvents c fb br p) =
      c.dwellUnit * br * c.ramp.apply (c.channelMap r) p ∧
    litTicks c (y % c.doubleRows) x (if y < c.doubleRows then c.layout.g1 else c.layout.g2) q (frameEvents c fb br p) =
      c.dwellUnit * br * c.ramp.apply (c.channelMap g) p ∧
    litTicks c (y % c.doubleRows) x (if y < c.doubleRows then c.layout.b1 else c.layout.b2) q (frameEvents c fb br p) =
      c.dwellUnit * br * c.ramp.apply (c.channelMap b) p

/-- R191 (the spec's own derivation): in a frame SCAN always has its step, whatever HOST holds, the step is one output event,
and the frame ends within the steps of one frame. -/
def Obligations.FramesAlwaysEnd : Prop :=
  ∀ s : State, BlockInv s → s.io = .ready → s.pos.inFrame = true →
    (∃ (t : State) (e : Event), scanStep s = .next t ∧ t.trace = e :: s.trace) ∧
    ∃ (n : Nat) (t : State), n ≤ frameSteps s.cfg s.pos.pFrame.toNat ∧ iterate scanStep n s = .next t ∧
      t.pos.inFrame = false

/-- R192: a direct `UpdateScreen` is taken, the host port waits, SCAN streams exactly one frame of the framebuffer as it was,
and the command returns `OK`; with the task running or stopping, or in a frame, it is refused. The sequence streamed is the
spec's decision D22, the refusal its decision D23. That taking the command, the wait and its end are
HOST turns of their own is the model's (log entries 7 and 12). -/
def Obligations.DirectUpdateScreenStreamsOneFrame : Prop :=
  (∀ s : State, PortFree s → ¬ ((s.task = .created ∨ s.task = .joined) ∧ s.pos.inFrame = false) →
    exec .updateScreen s = .refused .updateScreenNotAdmitted) ∧
  ∀ s : State, BlockInv s → Admitted .updateScreen s →
    ∃ t u : State,
      exec .updateScreen s = .next t ∧ t = { s with pos := { s.pos with frameReq := true }, hostOp := .waitFrame } ∧
      hostStep t = .next t ∧
      iterate scanStep (1 + frameSteps s.cfg s.pwmBits.toNat) t = .next u ∧
      u.outputTrace = s.outputTrace ++ frameEvents s.cfg s.fb s.brightness.toNat s.pwmBits.toNat ∧
      u.pos.inFrame = false ∧
      hostStep u = .next { u with hostOp := .idle, results := .ok :: s.results } ∧
      u.fb = s.fb ∧ u.task = s.task ∧ u.pwmBits = s.pwmBits ∧ u.brightness = s.brightness

/-! ### Task control -/

/-- R246: `Start` sets the liveness flag in one step and the port is free at once; from then on SCAN can start a frame. In any
other state of the task it is refused. -/
def Obligations.StartSetsTheLivenessFlag : Prop :=
  ∀ s : State, PortFree s →
    (s.task = .created →
      ∃ t, exec .start s = .next t ∧ t = { s with task := .running, results := .ok :: s.results } ∧ t.live = true ∧
        (s.pos.inFrame = false → t.scanReady = true)) ∧
    (s.task ≠ .created → exec .start s = .refused .startNotAdmitted)

/-- R248, R249, R250: `Stop` clears the flag and is held until SCAN confirms. Between frames SCAN confirms at once with no
output event, and the command returns `OK`. Unless the task runs it is refused, the spec's decision D27. -/
def Obligations.StopBetweenFramesJoinsAtOnce : Prop :=
  ∀ s : State, PortFree s →
    (s.task = .running →
      ∃ t, exec .stop s = .next t ∧ t = { s with task := .stopping, hostOp := .waitJoin } ∧ t.live = false ∧
        hostStep t = .next t ∧
        (s.pos.inFrame = false →
          scanStep t = .next { s with task := .joined, hostOp := .waitJoin } ∧
          hostStep { s with task := .joined, hostOp := .waitJoin } =
            .next { s with task := .joined, hostOp := .idle, results := .ok :: s.results })) ∧
    (s.task ≠ .running → exec .stop s = .refused .stopNotAdmitted)

/-- R249, R252: a `Stop` taken in any reachable situation returns after at most the steps of one frame and one more; the frame
in progress is finished, none is started, and output-enable is left released. -/
def Obligations.StopReturnsWithinOneFrame : Prop :=
  ∀ s : State, BlockInv s → PortFree s → s.task = .running →
    ∃ (t : State) (n : Nat) (u : State),
      exec .stop s = .next t ∧ n ≤ frameSteps s.cfg s.pos.pFrame.toNat + 1 ∧ iterate scanStep n t = .next u ∧
      u.task = .joined ∧ u.pos.inFrame = false ∧
      hostStep u = .next { u with hostOp := .idle, results := .ok :: s.results } ∧
      (s.pos.inFrame = false → n = 1 ∧ u.trace = s.trace) ∧
      (s.pos.inFrame = true →
        ∃ r, r < s.cfg.doubleRows ∧ u.trace.head? = some (.write (s.cfg.layout.ctl r false false (!s.cfg.oeOn))))

/-- R245, R251: the task register moves only along the lifecycle, and there is no way back from `Joined`. That there is none
is the spec's own derivation. -/
def Obligations.TaskMovesOnlyAlongTheLifecycle : Prop :=
  (∀ s t : State, step s = .next t →
    t.task = s.task ∨ (s.task = .created ∧ t.task = .running) ∨ (s.task = .running ∧ t.task = .stopping) ∨
      (s.task = .stopping ∧ t.task = .joined)) ∧
  ∀ s : State, PortFree s → s.task = .joined →
    exec .start s = .refused .startNotAdmitted ∧ exec .stop s = .refused .stopNotAdmitted

/-! ### The whole machine -/

/-- The invariant holds right after every successful construction, at `State.reset` among them. It takes in the values the
model chose for `cur` and `p_frame` (log entry 3). -/
def Obligations.ConstructionEstablishesTheInvariant : Prop :=
  (∀ (c : Config) (s : State), construct c = .built s → BlockInv s) ∧ BlockInv State.reset

/-- Every step of either agent keeps the invariant, which takes in R24 (the spec's own derivation), R26, R28 and R30. -/
def Obligations.StepKeepsTheInvariant : Prop :=
  ∀ s t : State, BlockInv s → step s = .next t → BlockInv t

/-- R65 (the spec's own derivation): no access falls outside the framebuffer, so no step from a state with the invariant
faults. -/
def Obligations.NoAccessFallsOutsideTheFramebuffer : Prop :=
  ∀ (s : State) (why : Fault), BlockInv s → step s ≠ .fault why

/-- R95: every word written to the output register has its unused bits and its input fields 0, the latter by the
spec's decision D19. -/
def Obligations.OutputWordsStayClean : Prop :=
  ∀ s t : State, BlockInv s → CleanTrace s → step s = .next t → CleanTrace t

/-- R34 (the spec's own derivation): every step keeps the output register at the word of the newest `Write` event, where there is
one. A step writes one word and the register becomes it, or loads the dwell timer and the register stays, or is no event and
both stay. It holds at reset, where there is no event. -/
def Obligations.OutputRegisterShowsTheLastWrite : Prop :=
  (∀ s t : State, step s = .next t →
    (OutputRegShown s → OutputRegShown t) ∧
    ((t.trace = s.trace ∧ t.outputReg = s.outputReg ∧ t.dwellTimer = s.dwellTimer) ∨
      (∃ w, t.trace = .write w :: s.trace ∧ t.outputReg = w ∧ t.dwellTimer = s.dwellTimer) ∨
      (∃ d, t.trace = .dwell d :: s.trace ∧ t.outputReg = s.outputReg ∧ t.dwellTimer = d))) ∧
  ∀ c : Config, OutputRegShown (State.initial c)

/-- R25, R76, R182, R277: SCAN writes no cell and no register of the host, and HOST writes nothing to the output. -/
def Obligations.AgentsWriteOnlyTheirOwnState : Prop :=
  ∀ s t : State,
    (scanStep s = .next t →
      t = { s with pos := t.pos, task := t.task, outputReg := t.outputReg, dwellTimer := t.dwellTimer, trace := t.trace }) ∧
    (hostStep s = .next t →
      t = { s with fb := t.fb, pwmBits := t.pwmBits, brightness := t.brightness, task := t.task, hostOp := t.hostOp,
                   inputReg := t.inputReg, results := t.results, port := t.port, env := t.env,
                   pos := { s.pos with frameReq := t.pos.frameReq } })

/-- R195: while a frame is in progress its plane count cannot change under it, and neither can `pwm_bits` or the
parameters. -/
def Obligations.NoResizeInsideAFrame : Prop :=
  ∀ s t : State, BlockInv s → step s = .next t → t.cfg = s.cfg ∧
    (s.pos.inFrame = true → t.pwmBits = s.pwmBits ∧ t.pos.pFrame = s.pos.pFrame)

/-- R66, R69, R182: which cells a step changes. SCAN changes none. A step of HOST changes at most the one cell that the
micro-step of the `SetPixel`, `Fill` or `Clear` in progress addresses, clears every cell if it is the one step of a valid
`SetPWMBits` outside a frame, and changes none otherwise (the spec's decisions D17 and D24). -/
def Obligations.StepsChangeOneCellAtATime : Prop :=
  ∀ s t : State, BlockInv s → step s = .next t →
    (nextTurn s = .scan → t.fb = s.fb) ∧
    (nextTurn s = .host →
      (∀ a, cellInHand s = some a → ∀ b, b ≠ a → t.fb.read b = s.fb.read b) ∧
      (cellInHand s = none → ClearsAll s → ∀ b, t.fb.read b = 0#32) ∧
      (cellInHand s = none → ¬ ClearsAll s → t.fb = s.fb))

/-- R69: a read returns the latest write to the cell, 0 if there is none (the spec's decision D18), and writing keeps the
canonical form, which is the model's (log entry 2). -/
def Obligations.CellReadsTheLatestWrite : Prop :=
  (∀ a, Memory.read [] a = 0#32) ∧
  ∀ (m : Memory) (a : Nat) (w : Word), m.wf = true →
    (m.write a w).wf = true ∧ ∀ b, (m.write a w).read b = if b = a then w else m.read b
end

