-- ==== Sys2Proof/Laws/BitLayout.lean ====
section
/-! SUPPORT. The Bit-Layout Model bit by bit: what each bit of a mask, of a placed field and of an encoded word is,
    and what a
well-formed layout says about two fields. -/

namespace Sys2Proof

theorem WordField.mem_all (f : WordField) : f ∈ WordField.all := by cases f <;> decide

/-- A field of a well-formed layout ends below bit 32 (R91). -/
theorem Layout.wf_bound {L : Layout} (h : L.wf = true) (f : WordField) : L.pos f + f.width ≤ 32 := by
  simp only [Layout.wf, Bool.and_eq_true, List.all_eq_true, decide_eq_true_eq] at h
  exact h.1 f (WordField.mem_all f)

/-- distinct fields occupy distinct bits -/
theorem Layout.wf_disjoint {L : Layout} (h : L.wf = true) {f g : WordField} (hfg : f ≠ g) {i : Nat}
    (hf : i ∈ L.bits f) (hg : i ∈ L.bits g) : False := by
  simp only [Layout.wf, Bool.and_eq_true, decide_eq_true_eq] at h
  have hn := h.2
  rw [List.nodup_flatMap] at hn
  have hp := hn.2
  rw [List.pairwise_iff_getElem] at hp
  obtain ⟨m, hm, rfl⟩ := List.mem_iff_getElem.1 (WordField.mem_all f)
  obtain ⟨n, hn', rfl⟩ := List.mem_iff_getElem.1 (WordField.mem_all g)
  rcases Nat.lt_trichotomy m n with hlt | heq | hgt
  · exact hp m n hm hn' hlt hf hg
  · subst heq; exact hfg rfl
  · exact hp n m hn' hm hgt hg hf

theorem Layout.mem_bits {L : Layout} {f : WordField} {i : Nat} : i ∈ L.bits f ↔ L.pos f ≤ i ∧
    i < L.pos f + f.width := by
  simp [Layout.bits, List.mem_range'_1]

/-- The low ones of a field, by bit. -/
theorem WordField.ones_testBit (f : WordField) (i : Nat) : (2 ^ f.width - 1).testBit i = decide (i < f.width) :=
  Nat.testBit_two_pow_sub_one _ _

/-- The low ones of a field as a word, by bit. -/
theorem WordField.getLsbD_ones (f : WordField) (i : Nat) : f.ones.getLsbD i = decide (i < f.width) := by
  unfold WordField.ones
  rw [BitVec.getLsbD_ofNat, WordField.ones_testBit]
  by_cases h : i < f.width
  · have : f.width ≤ 4 := by cases f <;> decide
    simp [h]; omega
  · simp [h]

/-- A mask has exactly its field's bits (R92). -/
theorem Layout.getLsbD_mask (L : Layout) (f : WordField) (i : Nat) :
    (L.mask f).getLsbD i = decide (i < 32 ∧ i ∈ L.bits f) := by
  rw [Layout.mask, BitVec.getLsbD_shiftLeft, WordField.getLsbD_ones, Bool.eq_iff_iff]
  simp [Layout.mem_bits]
  omega

theorem WordField.truncate_lt (f : WordField) (v : Int) : f.truncate v < 2 ^ f.width := by
  unfold WordField.truncate
  have h : (0:Int) < (2 ^ f.width : Nat) := by positivity
  have := Int.emod_lt_of_pos v h
  have := Int.emod_nonneg v (ne_of_gt h)
  omega

theorem WordField.truncate_cast (f : WordField) (v : Int) : (f.truncate v : Int) = v % 2 ^ f.width := by
  unfold WordField.truncate
  have h : (0:Int) < (2 ^ f.width : Nat) := by positivity
  have := Int.emod_nonneg v (ne_of_gt h)
  rw [Int.toNat_of_nonneg this]; simp

/-- A placed value, by bit (R96). -/
theorem Layout.getLsbD_place (L : Layout) (f : WordField) (v : Int) (i : Nat) :
    (L.place f v).getLsbD i = (decide (i < 32 ∧ i ∈ L.bits f) && (f.truncate v).testBit (i - L.pos f)) := by
  rw [Layout.place, BitVec.getLsbD_shiftLeft, BitVec.getLsbD_ofNat]
  simp only [Layout.mem_bits]
  by_cases h : i < L.pos f + f.width
  · rw [Bool.eq_iff_iff]; simp [h]; omega
  · rw [Nat.testBit_lt_two_pow (Nat.lt_of_lt_of_le (WordField.truncate_lt f v) (Nat.pow_le_pow_right (by norm_num)
      (by omega : f.width ≤ i - L.pos f)))]
    simp

theorem Layout.getLsbD_encodeSignals (L : Layout) (s : Signals) (i : Nat) :
    (L.encodeSignals s).getLsbD i = WordField.all.any fun f => (L.place f (s.get f)).getLsbD i := by
  have : ∀ fs : List WordField, (fs.foldr (fun f w => L.place f (s.get f) ||| w) 0#32).getLsbD i = fs.any fun f => (L.place f (s.get f)).getLsbD i := by
    intro fs; induction fs with
    | nil => simp
    | cons f fs ih => simp [BitVec.getLsbD_or, ih]
  exact this _

theorem Layout.getLsbD_maskOf (L : Layout) (fs : List WordField) (i : Nat) :
    (L.maskOf fs).getLsbD i = fs.any fun f => (L.mask f).getLsbD i := by
  induction fs with
  | nil => simp [Layout.maskOf]
  | cons f fs ih =>
    have : L.maskOf (f :: fs) = L.mask f ||| L.maskOf fs := rfl
    simp [this, ih]

theorem Layout.getLsbD_usedMask (L : Layout) (i : Nat)
    : L.usedMask.getLsbD i = WordField.all.any fun f => (L.mask f).getLsbD i := by
  simp only [Layout.usedMask, Layout.rgbMask, Layout.rgb1Mask, Layout.rgb2Mask, Layout.ctlMask, Layout.inMask,
      Layout.rowMask, BitVec.getLsbD_or, Layout.getLsbD_maskOf, WordField.all, List.any_cons, List.any_nil,
      Bool.or_false]
  ac_rfl

theorem Layout.getField_testBit (L : Layout) (w : Word) (f : WordField) (i : Nat) :
    (L.getField w f).testBit i = (decide (i < f.width) && w.getLsbD (L.pos f + i)) := by
  unfold Layout.getField
  rw [BitVec.testBit_toNat, BitVec.getLsbD_and, BitVec.getLsbD_ushiftRight, WordField.getLsbD_ones, Bool.and_comm]

theorem Layout.getField_lt (L : Layout) (w : Word) (f : WordField) : L.getField w f < 2 ^ f.width := by
  unfold Layout.getField
  rw [BitVec.toNat_and]
  have : f.ones.toNat < 2 ^ f.width := by cases f <;> decide
  exact Nat.lt_of_le_of_lt Nat.and_le_right this

theorem Layout.decodeSignals_get (L : Layout) (w : Word) (f : WordField)
    : (L.decodeSignals w).get f = L.getField w f := by
  cases f <;> rfl

/-- The six triplet bits of a well-formed layout are distinct (R91). -/
theorem Layout.triplets_nodup {L : Layout} (h : L.wf = true) : [L.r1, L.g1, L.b1, L.r2, L.g2, L.b2].Nodup := by
  simp only [Layout.wf, Bool.and_eq_true, decide_eq_true_eq] at h
  have h := h.2
  simp only [WordField.all, List.flatMap_cons, List.flatMap_nil, Layout.bits, WordField.width, List.range'_succ,
      List.append_nil] at h
  have : List.Sublist [L.r1, L.g1, L.b1, L.r2, L.g2, L.b2] ([L.sw1, L.sw2, L.joy0, L.joy1, L.joy2, L.joy3,
      L.outputEnable, L.clock, L.strobe, L.row, L.row+1, L.row+1+1, L.row+1+1+1, L.r1, L.g1, L.b1, L.r2, L.g2,
      L.b2]) := by
    repeat (first | exact List.Sublist.refl _ | apply List.Sublist.cons)
  exact this.nodup h

theorem getLsbD_bitWord_shift (b : Bool) (p i : Nat) : (bitWord b <<< p).getLsbD i = (b && decide (i < 32 ∧
    i = p)) := by
  rw [BitVec.getLsbD_shiftLeft]
  cases b
  · simp [bitWord]
  · simp only [bitWord, if_true, BitVec.getLsbD_one]
    rw [Bool.eq_iff_iff]; simp; omega

theorem Layout.mask_of_width_one (L : Layout) (f : WordField) (hf : f.width = 1)
    : L.mask f = bitWord true <<< L.pos f := by
  simp [Layout.mask, WordField.ones, hf, bitWord]

/-- The two triplet masks are the full triplets (R93, R97). -/
theorem Layout.rgbMasks_eq (L : Layout) : L.rgb1Mask = L.t1 true true true ∧ L.rgb2Mask = L.t2 true true true := by
  simp only [Layout.rgb1Mask, Layout.rgb2Mask, Layout.maskOf, List.foldr, Layout.t1, Layout.t2, BitVec.or_zero]
  rw [Layout.mask_of_width_one _ .r1 rfl, Layout.mask_of_width_one _ .g1 rfl, Layout.mask_of_width_one _ .b1 rfl,
      Layout.mask_of_width_one _ .r2 rfl, Layout.mask_of_width_one _ .g2 rfl, Layout.mask_of_width_one _ .b2 rfl]
  constructor <;> ac_rfl

/-- Triplet 1, by bit (R97). -/
theorem Layout.getLsbD_t1 (L : Layout) (r g b : Bool) (i : Nat)
    : (L.t1 r g b).getLsbD i = (decide (i < 32) && ((r && decide (i = L.r1)) || (g && decide (i = L.g1)) || (b && decide (i = L.b1)))) := by
  simp only [Layout.t1, BitVec.getLsbD_or, getLsbD_bitWord_shift, Layout.pos]
  by_cases h : i < 32 <;> simp [h]

/-- Triplet 2, by bit (R97). -/
theorem Layout.getLsbD_t2 (L : Layout) (r g b : Bool) (i : Nat)
    : (L.t2 r g b).getLsbD i = (decide (i < 32) && ((r && decide (i = L.r2)) || (g && decide (i = L.g2)) || (b && decide (i = L.b2)))) := by
  simp only [Layout.t2, BitVec.getLsbD_or, getLsbD_bitWord_shift, Layout.pos]
  by_cases h : i < 32 <;> simp [h]

/-- A triplet lies inside `RGB_MASK` (R93, R97). -/
theorem Layout.t1_and_not_rgbMask (L : Layout) (r g b : Bool) : L.t1 r g b &&& ~~~ L.rgbMask = 0#32 := by
  apply BitVec.eq_of_getLsbD_eq
  intro i hi
  simp only [BitVec.getLsbD_and, BitVec.getLsbD_not, hi, Layout.rgbMask, BitVec.getLsbD_or,
      (Layout.rgbMasks_eq _).1, (Layout.rgbMasks_eq _).2, Layout.getLsbD_t1, Layout.getLsbD_t2]
  by_cases h1 : i = L.r1 <;> by_cases h2 : i = L.g1 <;> by_cases h3 : i = L.b1 <;> simp [h1, h2, h3]

theorem Layout.t2_and_not_rgbMask (L : Layout) (r g b : Bool) : L.t2 r g b &&& ~~~ L.rgbMask = 0#32 := by
  apply BitVec.eq_of_getLsbD_eq
  intro i hi
  simp only [BitVec.getLsbD_and, BitVec.getLsbD_not, hi, Layout.rgbMask, BitVec.getLsbD_or,
      (Layout.rgbMasks_eq _).1, (Layout.rgbMasks_eq _).2, Layout.getLsbD_t1, Layout.getLsbD_t2]
  by_cases h1 : i = L.r2 <;> by_cases h2 : i = L.g2 <;> by_cases h3 : i = L.b2 <;> simp [h1, h2, h3]

theorem or_and_eq_zero {a b m : Word} (h1 : a &&& m = 0#32) (h2 : b &&& m = 0#32) : (a ||| b) &&& m = 0#32 := by
  have : (a ||| b) &&& m = (a &&& m) ||| (b &&& m) := by ext i hi; simp [Bool.and_or_distrib_right]
  rw [this, h1, h2]; rfl

theorem and_and_eq_zero {a c m : Word} (h1 : a &&& m = 0#32) : (a &&& c) &&& m = 0#32 := by
  have : (a &&& c) &&& m = (a &&& m) &&& c := by ac_rfl
  rw [this, h1]; simp

end Sys2Proof
end

