-- ==== Sys2Proof/Laws/State.lean ====
section
/-! SUPPORT. For each update of the state, what each field holds after it: one lemma per field per update. -/

namespace Sys2Proof
namespace Machine

@[simp] theorem State.storeCell_cfg (s : State) (a : Nat) (w : Word) : (s.storeCell a w).cfg = s.cfg := rfl
@[simp] theorem State.storeCell_fb (s : State) (a : Nat) (w : Word) : (s.storeCell a w).fb = s.fb.write a w := rfl
@[simp] theorem State.storeCell_pwmBits (s : State) (a : Nat) (w : Word) : (s.storeCell a w).pwmBits = s.pwmBits := rfl
@[simp] theorem State.storeCell_brightness (s : State) (a : Nat) (w : Word) : (s.storeCell a w).brightness = s.brightness := rfl
@[simp] theorem State.storeCell_task (s : State) (a : Nat) (w : Word) : (s.storeCell a w).task = s.task := rfl
@[simp] theorem State.storeCell_io (s : State) (a : Nat) (w : Word) : (s.storeCell a w).io = s.io := rfl
@[simp] theorem State.storeCell_pos (s : State) (a : Nat) (w : Word) : (s.storeCell a w).pos = s.pos := rfl
@[simp] theorem State.storeCell_hostOp (s : State) (a : Nat) (w : Word) : (s.storeCell a w).hostOp = s.hostOp := rfl
@[simp] theorem State.storeCell_outputReg (s : State) (a : Nat) (w : Word) : (s.storeCell a w).outputReg = s.outputReg := rfl
@[simp] theorem State.storeCell_inputReg (s : State) (a : Nat) (w : Word) : (s.storeCell a w).inputReg = s.inputReg := rfl
@[simp] theorem State.storeCell_dwellTimer (s : State) (a : Nat) (w : Word) : (s.storeCell a w).dwellTimer = s.dwellTimer := rfl
@[simp] theorem State.storeCell_trace (s : State) (a : Nat) (w : Word) : (s.storeCell a w).trace = s.trace := rfl
@[simp] theorem State.storeCell_results (s : State) (a : Nat) (w : Word) : (s.storeCell a w).results = s.results := rfl
@[simp] theorem State.storeCell_port (s : State) (a : Nat) (w : Word) : (s.storeCell a w).port = s.port := rfl
@[simp] theorem State.storeCell_env (s : State) (a : Nat) (w : Word) : (s.storeCell a w).env = s.env := rfl

@[simp] theorem State.resize_cfg (s : State) (n : BitVec 4) : (s.resize n).cfg = s.cfg := rfl
@[simp] theorem State.resize_fb (s : State) (n : BitVec 4) : (s.resize n).fb = [] := rfl
@[simp] theorem State.resize_pwmBits (s : State) (n : BitVec 4) : (s.resize n).pwmBits = n := rfl
@[simp] theorem State.resize_brightness (s : State) (n : BitVec 4) : (s.resize n).brightness = s.brightness := rfl
@[simp] theorem State.resize_task (s : State) (n : BitVec 4) : (s.resize n).task = s.task := rfl
@[simp] theorem State.resize_io (s : State) (n : BitVec 4) : (s.resize n).io = s.io := rfl
@[simp] theorem State.resize_pos (s : State) (n : BitVec 4) : (s.resize n).pos = s.pos := rfl
@[simp] theorem State.resize_hostOp (s : State) (n : BitVec 4) : (s.resize n).hostOp = s.hostOp := rfl
@[simp] theorem State.resize_outputReg (s : State) (n : BitVec 4) : (s.resize n).outputReg = s.outputReg := rfl
@[simp] theorem State.resize_inputReg (s : State) (n : BitVec 4) : (s.resize n).inputReg = s.inputReg := rfl
@[simp] theorem State.resize_dwellTimer (s : State) (n : BitVec 4) : (s.resize n).dwellTimer = s.dwellTimer := rfl
@[simp] theorem State.resize_trace (s : State) (n : BitVec 4) : (s.resize n).trace = s.trace := rfl
@[simp] theorem State.resize_results (s : State) (n : BitVec 4) : (s.resize n).results = s.results := rfl
@[simp] theorem State.resize_port (s : State) (n : BitVec 4) : (s.resize n).port = s.port := rfl
@[simp] theorem State.resize_env (s : State) (n : BitVec 4) : (s.resize n).env = s.env := rfl

@[simp] theorem State.setBrightness_cfg (s : State) (br : BitVec 4) : (s.setBrightness br).cfg = s.cfg := rfl
@[simp] theorem State.setBrightness_fb (s : State) (br : BitVec 4) : (s.setBrightness br).fb = s.fb := rfl
@[simp] theorem State.setBrightness_pwmBits (s : State) (br : BitVec 4) : (s.setBrightness br).pwmBits = s.pwmBits := rfl
@[simp] theorem State.setBrightness_brightness (s : State) (br : BitVec 4) : (s.setBrightness br).brightness = br := rfl
@[simp] theorem State.setBrightness_task (s : State) (br : BitVec 4) : (s.setBrightness br).task = s.task := rfl
@[simp] theorem State.setBrightness_io (s : State) (br : BitVec 4) : (s.setBrightness br).io = s.io := rfl
@[simp] theorem State.setBrightness_pos (s : State) (br : BitVec 4) : (s.setBrightness br).pos = s.pos := rfl
@[simp] theorem State.setBrightness_hostOp (s : State) (br : BitVec 4) : (s.setBrightness br).hostOp = s.hostOp := rfl
@[simp] theorem State.setBrightness_outputReg (s : State) (br : BitVec 4) : (s.setBrightness br).outputReg = s.outputReg := rfl
@[simp] theorem State.setBrightness_inputReg (s : State) (br : BitVec 4) : (s.setBrightness br).inputReg = s.inputReg := rfl
@[simp] theorem State.setBrightness_dwellTimer (s : State) (br : BitVec 4) : (s.setBrightness br).dwellTimer = s.dwellTimer := rfl
@[simp] theorem State.setBrightness_trace (s : State) (br : BitVec 4) : (s.setBrightness br).trace = s.trace := rfl
@[simp] theorem State.setBrightness_results (s : State) (br : BitVec 4) : (s.setBrightness br).results = s.results := rfl
@[simp] theorem State.setBrightness_port (s : State) (br : BitVec 4) : (s.setBrightness br).port = s.port := rfl
@[simp] theorem State.setBrightness_env (s : State) (br : BitVec 4) : (s.setBrightness br).env = s.env := rfl

@[simp] theorem State.setTask_cfg (s : State) (t : TaskState) : (s.setTask t).cfg = s.cfg := rfl
@[simp] theorem State.setTask_fb (s : State) (t : TaskState) : (s.setTask t).fb = s.fb := rfl
@[simp] theorem State.setTask_pwmBits (s : State) (t : TaskState) : (s.setTask t).pwmBits = s.pwmBits := rfl
@[simp] theorem State.setTask_brightness (s : State) (t : TaskState) : (s.setTask t).brightness = s.brightness := rfl
@[simp] theorem State.setTask_task (s : State) (t : TaskState) : (s.setTask t).task = t := rfl
@[simp] theorem State.setTask_io (s : State) (t : TaskState) : (s.setTask t).io = s.io := rfl
@[simp] theorem State.setTask_pos (s : State) (t : TaskState) : (s.setTask t).pos = s.pos := rfl
@[simp] theorem State.setTask_hostOp (s : State) (t : TaskState) : (s.setTask t).hostOp = s.hostOp := rfl
@[simp] theorem State.setTask_outputReg (s : State) (t : TaskState) : (s.setTask t).outputReg = s.outputReg := rfl
@[simp] theorem State.setTask_inputReg (s : State) (t : TaskState) : (s.setTask t).inputReg = s.inputReg := rfl
@[simp] theorem State.setTask_dwellTimer (s : State) (t : TaskState) : (s.setTask t).dwellTimer = s.dwellTimer := rfl
@[simp] theorem State.setTask_trace (s : State) (t : TaskState) : (s.setTask t).trace = s.trace := rfl
@[simp] theorem State.setTask_results (s : State) (t : TaskState) : (s.setTask t).results = s.results := rfl
@[simp] theorem State.setTask_port (s : State) (t : TaskState) : (s.setTask t).port = s.port := rfl
@[simp] theorem State.setTask_env (s : State) (t : TaskState) : (s.setTask t).env = s.env := rfl

@[simp] theorem State.setPos_cfg (s : State) (p : Pos) : (s.setPos p).cfg = s.cfg := rfl
@[simp] theorem State.setPos_fb (s : State) (p : Pos) : (s.setPos p).fb = s.fb := rfl
@[simp] theorem State.setPos_pwmBits (s : State) (p : Pos) : (s.setPos p).pwmBits = s.pwmBits := rfl
@[simp] theorem State.setPos_brightness (s : State) (p : Pos) : (s.setPos p).brightness = s.brightness := rfl
@[simp] theorem State.setPos_task (s : State) (p : Pos) : (s.setPos p).task = s.task := rfl
@[simp] theorem State.setPos_io (s : State) (p : Pos) : (s.setPos p).io = s.io := rfl
@[simp] theorem State.setPos_pos (s : State) (p : Pos) : (s.setPos p).pos = p := rfl
@[simp] theorem State.setPos_hostOp (s : State) (p : Pos) : (s.setPos p).hostOp = s.hostOp := rfl
@[simp] theorem State.setPos_outputReg (s : State) (p : Pos) : (s.setPos p).outputReg = s.outputReg := rfl
@[simp] theorem State.setPos_inputReg (s : State) (p : Pos) : (s.setPos p).inputReg = s.inputReg := rfl
@[simp] theorem State.setPos_dwellTimer (s : State) (p : Pos) : (s.setPos p).dwellTimer = s.dwellTimer := rfl
@[simp] theorem State.setPos_trace (s : State) (p : Pos) : (s.setPos p).trace = s.trace := rfl
@[simp] theorem State.setPos_results (s : State) (p : Pos) : (s.setPos p).results = s.results := rfl
@[simp] theorem State.setPos_port (s : State) (p : Pos) : (s.setPos p).port = s.port := rfl
@[simp] theorem State.setPos_env (s : State) (p : Pos) : (s.setPos p).env = s.env := rfl

@[simp] theorem State.hold_cfg (s : State) (op : HostOp) : (s.hold op).cfg = s.cfg := rfl
@[simp] theorem State.hold_fb (s : State) (op : HostOp) : (s.hold op).fb = s.fb := rfl
@[simp] theorem State.hold_pwmBits (s : State) (op : HostOp) : (s.hold op).pwmBits = s.pwmBits := rfl
@[simp] theorem State.hold_brightness (s : State) (op : HostOp) : (s.hold op).brightness = s.brightness := rfl
@[simp] theorem State.hold_task (s : State) (op : HostOp) : (s.hold op).task = s.task := rfl
@[simp] theorem State.hold_io (s : State) (op : HostOp) : (s.hold op).io = s.io := rfl
@[simp] theorem State.hold_pos (s : State) (op : HostOp) : (s.hold op).pos = s.pos := rfl
@[simp] theorem State.hold_hostOp (s : State) (op : HostOp) : (s.hold op).hostOp = op := rfl
@[simp] theorem State.hold_outputReg (s : State) (op : HostOp) : (s.hold op).outputReg = s.outputReg := rfl
@[simp] theorem State.hold_inputReg (s : State) (op : HostOp) : (s.hold op).inputReg = s.inputReg := rfl
@[simp] theorem State.hold_dwellTimer (s : State) (op : HostOp) : (s.hold op).dwellTimer = s.dwellTimer := rfl
@[simp] theorem State.hold_trace (s : State) (op : HostOp) : (s.hold op).trace = s.trace := rfl
@[simp] theorem State.hold_results (s : State) (op : HostOp) : (s.hold op).results = s.results := rfl
@[simp] theorem State.hold_port (s : State) (op : HostOp) : (s.hold op).port = s.port := rfl
@[simp] theorem State.hold_env (s : State) (op : HostOp) : (s.hold op).env = s.env := rfl

@[simp] theorem State.complete_cfg (s : State) (r : Result) : (s.complete r).cfg = s.cfg := rfl
@[simp] theorem State.complete_fb (s : State) (r : Result) : (s.complete r).fb = s.fb := rfl
@[simp] theorem State.complete_pwmBits (s : State) (r : Result) : (s.complete r).pwmBits = s.pwmBits := rfl
@[simp] theorem State.complete_brightness (s : State) (r : Result) : (s.complete r).brightness = s.brightness := rfl
@[simp] theorem State.complete_task (s : State) (r : Result) : (s.complete r).task = s.task := rfl
@[simp] theorem State.complete_io (s : State) (r : Result) : (s.complete r).io = s.io := rfl
@[simp] theorem State.complete_pos (s : State) (r : Result) : (s.complete r).pos = s.pos := rfl
@[simp] theorem State.complete_hostOp (s : State) (r : Result) : (s.complete r).hostOp = .idle := rfl
@[simp] theorem State.complete_outputReg (s : State) (r : Result) : (s.complete r).outputReg = s.outputReg := rfl
@[simp] theorem State.complete_inputReg (s : State) (r : Result) : (s.complete r).inputReg = s.inputReg := rfl
@[simp] theorem State.complete_dwellTimer (s : State) (r : Result) : (s.complete r).dwellTimer = s.dwellTimer := rfl
@[simp] theorem State.complete_trace (s : State) (r : Result) : (s.complete r).trace = s.trace := rfl
@[simp] theorem State.complete_results (s : State) (r : Result) : (s.complete r).results = r :: s.results := rfl
@[simp] theorem State.complete_port (s : State) (r : Result) : (s.complete r).port = s.port := rfl
@[simp] theorem State.complete_env (s : State) (r : Result) : (s.complete r).env = s.env := rfl

@[simp] theorem State.writeOutput_cfg (s : State) (w : Word) : (s.writeOutput w).cfg = s.cfg := rfl
@[simp] theorem State.writeOutput_fb (s : State) (w : Word) : (s.writeOutput w).fb = s.fb := rfl
@[simp] theorem State.writeOutput_pwmBits (s : State) (w : Word) : (s.writeOutput w).pwmBits = s.pwmBits := rfl
@[simp] theorem State.writeOutput_brightness (s : State) (w : Word) : (s.writeOutput w).brightness = s.brightness := rfl
@[simp] theorem State.writeOutput_task (s : State) (w : Word) : (s.writeOutput w).task = s.task := rfl
@[simp] theorem State.writeOutput_io (s : State) (w : Word) : (s.writeOutput w).io = s.io := rfl
@[simp] theorem State.writeOutput_pos (s : State) (w : Word) : (s.writeOutput w).pos = s.pos := rfl
@[simp] theorem State.writeOutput_hostOp (s : State) (w : Word) : (s.writeOutput w).hostOp = s.hostOp := rfl
@[simp] theorem State.writeOutput_outputReg (s : State) (w : Word) : (s.writeOutput w).outputReg = w := rfl
@[simp] theorem State.writeOutput_inputReg (s : State) (w : Word) : (s.writeOutput w).inputReg = s.inputReg := rfl
@[simp] theorem State.writeOutput_dwellTimer (s : State) (w : Word) : (s.writeOutput w).dwellTimer = s.dwellTimer := rfl
@[simp] theorem State.writeOutput_trace (s : State) (w : Word) : (s.writeOutput w).trace = .write w :: s.trace := rfl
@[simp] theorem State.writeOutput_results (s : State) (w : Word) : (s.writeOutput w).results = s.results := rfl
@[simp] theorem State.writeOutput_port (s : State) (w : Word) : (s.writeOutput w).port = s.port := rfl
@[simp] theorem State.writeOutput_env (s : State) (w : Word) : (s.writeOutput w).env = s.env := rfl

@[simp] theorem State.loadDwell_cfg (s : State) (d : Nat) : (s.loadDwell d).cfg = s.cfg := rfl
@[simp] theorem State.loadDwell_fb (s : State) (d : Nat) : (s.loadDwell d).fb = s.fb := rfl
@[simp] theorem State.loadDwell_pwmBits (s : State) (d : Nat) : (s.loadDwell d).pwmBits = s.pwmBits := rfl
@[simp] theorem State.loadDwell_brightness (s : State) (d : Nat) : (s.loadDwell d).brightness = s.brightness := rfl
@[simp] theorem State.loadDwell_task (s : State) (d : Nat) : (s.loadDwell d).task = s.task := rfl
@[simp] theorem State.loadDwell_io (s : State) (d : Nat) : (s.loadDwell d).io = s.io := rfl
@[simp] theorem State.loadDwell_pos (s : State) (d : Nat) : (s.loadDwell d).pos = s.pos := rfl
@[simp] theorem State.loadDwell_hostOp (s : State) (d : Nat) : (s.loadDwell d).hostOp = s.hostOp := rfl
@[simp] theorem State.loadDwell_outputReg (s : State) (d : Nat) : (s.loadDwell d).outputReg = s.outputReg := rfl
@[simp] theorem State.loadDwell_inputReg (s : State) (d : Nat) : (s.loadDwell d).inputReg = s.inputReg := rfl
@[simp] theorem State.loadDwell_dwellTimer (s : State) (d : Nat) : (s.loadDwell d).dwellTimer = d := rfl
@[simp] theorem State.loadDwell_trace (s : State) (d : Nat) : (s.loadDwell d).trace = .dwell d :: s.trace := rfl
@[simp] theorem State.loadDwell_results (s : State) (d : Nat) : (s.loadDwell d).results = s.results := rfl
@[simp] theorem State.loadDwell_port (s : State) (d : Nat) : (s.loadDwell d).port = s.port := rfl
@[simp] theorem State.loadDwell_env (s : State) (d : Nat) : (s.loadDwell d).env = s.env := rfl

@[simp] theorem State.readInput_cfg (s : State) : (s.readInput).cfg = s.cfg := rfl
@[simp] theorem State.readInput_fb (s : State) : (s.readInput).fb = s.fb := rfl
@[simp] theorem State.readInput_pwmBits (s : State) : (s.readInput).pwmBits = s.pwmBits := rfl
@[simp] theorem State.readInput_brightness (s : State) : (s.readInput).brightness = s.brightness := rfl
@[simp] theorem State.readInput_task (s : State) : (s.readInput).task = s.task := rfl
@[simp] theorem State.readInput_io (s : State) : (s.readInput).io = s.io := rfl
@[simp] theorem State.readInput_pos (s : State) : (s.readInput).pos = s.pos := rfl
@[simp] theorem State.readInput_hostOp (s : State) : (s.readInput).hostOp = s.hostOp := rfl
@[simp] theorem State.readInput_outputReg (s : State) : (s.readInput).outputReg = s.outputReg := rfl
@[simp] theorem State.readInput_inputReg (s : State) : (s.readInput).inputReg = s.inputWord := rfl
@[simp] theorem State.readInput_dwellTimer (s : State) : (s.readInput).dwellTimer = s.dwellTimer := rfl
@[simp] theorem State.readInput_trace (s : State) : (s.readInput).trace = s.trace := rfl
@[simp] theorem State.readInput_results (s : State) : (s.readInput).results = s.results := rfl
@[simp] theorem State.readInput_port (s : State) : (s.readInput).port = s.port := rfl
@[simp] theorem State.readInput_env (s : State) : (s.readInput).env = s.env.afterInput := rfl

@[simp] theorem State.takeTurn_cfg (s : State) : (s.takeTurn).cfg = s.cfg := rfl
@[simp] theorem State.takeTurn_fb (s : State) : (s.takeTurn).fb = s.fb := rfl
@[simp] theorem State.takeTurn_pwmBits (s : State) : (s.takeTurn).pwmBits = s.pwmBits := rfl
@[simp] theorem State.takeTurn_brightness (s : State) : (s.takeTurn).brightness = s.brightness := rfl
@[simp] theorem State.takeTurn_task (s : State) : (s.takeTurn).task = s.task := rfl
@[simp] theorem State.takeTurn_io (s : State) : (s.takeTurn).io = s.io := rfl
@[simp] theorem State.takeTurn_pos (s : State) : (s.takeTurn).pos = s.pos := rfl
@[simp] theorem State.takeTurn_hostOp (s : State) : (s.takeTurn).hostOp = s.hostOp := rfl
@[simp] theorem State.takeTurn_outputReg (s : State) : (s.takeTurn).outputReg = s.outputReg := rfl
@[simp] theorem State.takeTurn_inputReg (s : State) : (s.takeTurn).inputReg = s.inputReg := rfl
@[simp] theorem State.takeTurn_dwellTimer (s : State) : (s.takeTurn).dwellTimer = s.dwellTimer := rfl
@[simp] theorem State.takeTurn_trace (s : State) : (s.takeTurn).trace = s.trace := rfl
@[simp] theorem State.takeTurn_results (s : State) : (s.takeTurn).results = s.results := rfl
@[simp] theorem State.takeTurn_port (s : State) : (s.takeTurn).port = s.port := rfl
@[simp] theorem State.takeTurn_env (s : State) : (s.takeTurn).env = s.env.afterTurn := rfl

@[simp] theorem State.popPort_cfg (s : State) : (s.popPort).cfg = s.cfg := rfl
@[simp] theorem State.popPort_fb (s : State) : (s.popPort).fb = s.fb := rfl
@[simp] theorem State.popPort_pwmBits (s : State) : (s.popPort).pwmBits = s.pwmBits := rfl
@[simp] theorem State.popPort_brightness (s : State) : (s.popPort).brightness = s.brightness := rfl
@[simp] theorem State.popPort_task (s : State) : (s.popPort).task = s.task := rfl
@[simp] theorem State.popPort_io (s : State) : (s.popPort).io = s.io := rfl
@[simp] theorem State.popPort_pos (s : State) : (s.popPort).pos = s.pos := rfl
@[simp] theorem State.popPort_hostOp (s : State) : (s.popPort).hostOp = s.hostOp := rfl
@[simp] theorem State.popPort_outputReg (s : State) : (s.popPort).outputReg = s.outputReg := rfl
@[simp] theorem State.popPort_inputReg (s : State) : (s.popPort).inputReg = s.inputReg := rfl
@[simp] theorem State.popPort_dwellTimer (s : State) : (s.popPort).dwellTimer = s.dwellTimer := rfl
@[simp] theorem State.popPort_trace (s : State) : (s.popPort).trace = s.trace := rfl
@[simp] theorem State.popPort_results (s : State) : (s.popPort).results = s.results := rfl
@[simp] theorem State.popPort_port (s : State) : (s.popPort).port = s.port.tail := rfl
@[simp] theorem State.popPort_env (s : State) : (s.popPort).env = s.env := rfl

@[simp] theorem State.withTurns_cfg (s : State) (ts : List Agent) : (s.withTurns ts).cfg = s.cfg := rfl
@[simp] theorem State.withTurns_fb (s : State) (ts : List Agent) : (s.withTurns ts).fb = s.fb := rfl
@[simp] theorem State.withTurns_pwmBits (s : State) (ts : List Agent) : (s.withTurns ts).pwmBits = s.pwmBits := rfl
@[simp] theorem State.withTurns_brightness (s : State) (ts : List Agent) : (s.withTurns ts).brightness = s.brightness := rfl
@[simp] theorem State.withTurns_task (s : State) (ts : List Agent) : (s.withTurns ts).task = s.task := rfl
@[simp] theorem State.withTurns_io (s : State) (ts : List Agent) : (s.withTurns ts).io = s.io := rfl
@[simp] theorem State.withTurns_pos (s : State) (ts : List Agent) : (s.withTurns ts).pos = s.pos := rfl
@[simp] theorem State.withTurns_hostOp (s : State) (ts : List Agent) : (s.withTurns ts).hostOp = s.hostOp := rfl
@[simp] theorem State.withTurns_outputReg (s : State) (ts : List Agent) : (s.withTurns ts).outputReg = s.outputReg := rfl
@[simp] theorem State.withTurns_inputReg (s : State) (ts : List Agent) : (s.withTurns ts).inputReg = s.inputReg := rfl
@[simp] theorem State.withTurns_dwellTimer (s : State) (ts : List Agent) : (s.withTurns ts).dwellTimer = s.dwellTimer := rfl
@[simp] theorem State.withTurns_trace (s : State) (ts : List Agent) : (s.withTurns ts).trace = s.trace := rfl
@[simp] theorem State.withTurns_results (s : State) (ts : List Agent) : (s.withTurns ts).results = s.results := rfl
@[simp] theorem State.withTurns_port (s : State) (ts : List Agent) : (s.withTurns ts).port = s.port := rfl
@[simp] theorem State.withTurns_env (s : State) (ts : List Agent) : (s.withTurns ts).env = { s.env with turns := ts } := rfl

@[simp] theorem State.replacedBy_cfg (s t : State) : (s.replacedBy t).cfg = t.cfg := rfl
@[simp] theorem State.replacedBy_fb (s t : State) : (s.replacedBy t).fb = t.fb := rfl
@[simp] theorem State.replacedBy_pwmBits (s t : State) : (s.replacedBy t).pwmBits = t.pwmBits := rfl
@[simp] theorem State.replacedBy_brightness (s t : State) : (s.replacedBy t).brightness = t.brightness := rfl
@[simp] theorem State.replacedBy_task (s t : State) : (s.replacedBy t).task = t.task := rfl
@[simp] theorem State.replacedBy_io (s t : State) : (s.replacedBy t).io = t.io := rfl
@[simp] theorem State.replacedBy_pos (s t : State) : (s.replacedBy t).pos = t.pos := rfl
@[simp] theorem State.replacedBy_hostOp (s t : State) : (s.replacedBy t).hostOp = t.hostOp := rfl
@[simp] theorem State.replacedBy_outputReg (s t : State) : (s.replacedBy t).outputReg = t.outputReg := rfl
@[simp] theorem State.replacedBy_inputReg (s t : State) : (s.replacedBy t).inputReg = t.inputReg := rfl
@[simp] theorem State.replacedBy_dwellTimer (s t : State) : (s.replacedBy t).dwellTimer = t.dwellTimer := rfl
@[simp] theorem State.replacedBy_trace (s t : State) : (s.replacedBy t).trace = t.trace := rfl
@[simp] theorem State.replacedBy_results (s t : State) : (s.replacedBy t).results = t.results := rfl
@[simp] theorem State.replacedBy_port (s t : State) : (s.replacedBy t).port = s.port := rfl
@[simp] theorem State.replacedBy_env (s t : State) : (s.replacedBy t).env = s.env := rfl

end Machine
end Sys2Proof
end

