-- ==== Sys2Proof/Laws/Encoding.lean ====
section
/-! SUPPORT. The reference command word: a word and its seven fields, what a row of the table asks of them,
    and what the decoder
takes. -/

namespace Sys2Proof

/-- any word from its seven fields -/
def packAll (op z : BitVec 4) (xf yf : BitVec 16) (rf gf bf : Byte) : CmdWord := op ++ z ++ xf ++ yf ++ rf ++ gf ++ bf

/-- A concatenation as a number. -/
theorem toNat_app {n m : Nat} (x : BitVec n) (y : BitVec m) : (x ++ y).toNat = x.toNat * 2 ^ m + y.toNat := by
  rw [BitVec.toNat_append, ← Nat.shiftLeft_add_eq_or_of_lt y.isLt, Nat.shiftLeft_eq]

/-- A word from its fields as a number. -/
theorem packAll_toNat (op z : BitVec 4) (xf yf : BitVec 16) (r g b : Byte)
    : (packAll op z xf yf r g b).toNat = ((((((op.toNat * 16 + z.toNat) * 65536 + xf.toNat) * 65536 + yf.toNat) * 256 + r.toNat) * 256 + g.toNat) * 256 + b.toNat) := by
  simp only [packAll, toNat_app]; norm_num

/-- A word determines its fields. -/
theorem packAll_inj {op z op' z' : BitVec 4} {xf yf xf' yf' : BitVec 16} {r g b r' g' b' : Byte} :
    packAll op z xf yf r g b = packAll op' z' xf' yf' r' g' b' ↔ op = op' ∧ z = z' ∧ xf = xf' ∧ yf = yf' ∧ r = r' ∧
        g = g' ∧ b = b' := by
  constructor
  · intro h
    have := congrArg BitVec.toNat h
    simp only [packAll_toNat] at this
    have := op.isLt; have := z.isLt; have := xf.isLt; have := yf.isLt; have := r.isLt; have := g.isLt; have := b.isLt
    have := op'.isLt; have := z'.isLt; have := xf'.isLt; have := yf'.isLt; have := r'.isLt; have := g'.isLt; have := b'.isLt
    simp only [← BitVec.toNat_inj]
    omega
  · rintro ⟨rfl, rfl, rfl, rfl, rfl, rfl, rfl⟩; rfl

/-- And, field by field. -/
theorem packAll_and (op z op' z' : BitVec 4) (xf yf xf' yf' : BitVec 16) (r g b r' g' b' : Byte) :
    packAll op z xf yf r g b &&& packAll op' z' xf' yf' r' g' b' = packAll (op &&& op') (z &&& z') (xf &&& xf')
        (yf &&& yf') (r &&& r') (g &&& g') (b &&& b') := by
  have h : ∀ {n m : Nat} (a b : BitVec n) (c d : BitVec m), (a ++ c) &&& (b ++ d) = (a &&& b) ++ (c &&& d) := by
    intro n m a b c d
    apply BitVec.eq_of_getLsbD_eq
    intro i hi
    simp only [BitVec.getLsbD_and, BitVec.getLsbD_append]
    split <;> simp
  simp only [packAll, h]

/-- The fields of a word built from fields (R110). -/
theorem fields_packAll (op z : BitVec 4) (xf yf : BitVec 16) (r g b : Byte) :
    CmdWord.op (packAll op z xf yf r g b) = op ∧ CmdWord.z (packAll op z xf yf r g b) = z ∧
        CmdWord.xf (packAll op z xf yf r g b) = xf ∧
    CmdWord.yf (packAll op z xf yf r g b) = yf ∧ CmdWord.rf (packAll op z xf yf r g b) = r ∧
        CmdWord.gf (packAll op z xf yf r g b) = g ∧ CmdWord.bf (packAll op z xf yf r g b) = b := by
  have e : (packAll op z xf yf r g b).toNat = ((((((op.toNat * 16 + z.toNat) * 65536 + xf.toNat) * 65536 + yf.toNat) * 256 + r.toNat) * 256 + g.toNat) * 256 + b.toNat) := by
    exact packAll_toNat ..
  have := op.isLt; have := z.isLt; have := xf.isLt; have := yf.isLt; have := r.isLt; have := g.isLt; have := b.isLt
  refine ⟨?_, ?_, ?_, ?_, ?_, ?_, ?_⟩ <;>
    (rw [← BitVec.toNat_inj]; simp only [CmdWord.op, CmdWord.z, CmdWord.xf, CmdWord.yf, CmdWord.rf, CmdWord.gf,
        CmdWord.bf, BitVec.extractLsb'_toNat, e, Nat.shiftRight_eq_div_pow]; omega)

/-- A word is built from its fields (R110). -/
theorem packAll_fields (cw : CmdWord) : packAll (CmdWord.op cw) (CmdWord.z cw) (CmdWord.xf cw) (CmdWord.yf cw)
    (CmdWord.rf cw) (CmdWord.gf cw) (CmdWord.bf cw) = cw := by
  rw [← BitVec.toNat_inj]
  simp only [packAll_toNat]
  simp only [CmdWord.op, CmdWord.z, CmdWord.xf, CmdWord.yf, CmdWord.rf, CmdWord.gf, CmdWord.bf,
      BitVec.extractLsb'_toNat, Nat.shiftRight_eq_div_pow]
  have := cw.isLt
  omega

/-- the row of an opcode, field by field -/
theorem row_packAll_iff (o : Opcode) (op z : BitVec 4) (xf yf : BitVec 16) (r g b : Byte) :
    packAll op z xf yf r g b &&& o.mask = o.matchBits ↔ op = o.code ∧ z = 0#4 ∧
      (o = .setPixel ∨ o = .setPwmBits ∨ xf = 0#16) ∧ (o = .setPixel ∨ yf = 0#16) ∧
      (o = .setPixel ∨ o = .fill ∨ (r = 0#8 ∧ g = 0#8 ∧ b = 0#8)) := by
  have hm : o.mask = packAll 0xF#4 0xF#4 (if o = .setPixel ∨ o = .setPwmBits then 0#16 else 0xFFFF#16)
      (if o = .setPixel then 0#16 else 0xFFFF#16)
     (if o = .setPixel ∨ o = .fill then 0#8 else 0xFF#8) (if o = .setPixel ∨ o = .fill then 0#8 else 0xFF#8)
         (if o = .setPixel ∨ o = .fill then 0#8 else 0xFF#8) := by
    cases o <;> decide
  have hb : o.matchBits = packAll o.code 0#4 0#16 0#16 0#8 0#8 0#8 := by cases o <;> decide
  rw [hm, hb, packAll_and, packAll_inj]
  have h4 : ∀ v : BitVec 4, v &&& 0xF#4 = v := fun v => BitVec.and_allOnes
  have h16 : ∀ v : BitVec 16, v &&& 0xFFFF#16 = v := fun v => BitVec.and_allOnes
  have h8 : ∀ v : BitVec 8, v &&& 0xFF#8 = v := fun v => BitVec.and_allOnes
  cases o <;> simp [h4, h16, h8]

theorem Opcode.code_inj {o o' : Opcode} (h : o.code = o'.code) : o = o' := by
  cases o <;> cases o' <;> first | rfl | (exfalso; revert h; decide)

theorem Opcode.ofCode_code (o : Opcode) : Opcode.ofCode o.code = some o := by cases o <;> rfl

theorem Opcode.eq_code_of_ofCode {c : BitVec 4} {o : Opcode} (h : Opcode.ofCode c = some o) : c = o.code := by
  revert h; revert c; cases o <;> decide

theorem opcode_assemble (o : Opcode) (cw : CmdWord) : (assemble o cw).opcode = o := by cases o <;> rfl

/-- What the decoder takes meets a row (R111). -/
theorem row_of_decode {cw : CmdWord} {i : Instr} (h : decode cw = .ok i) : ∃ o, cw &&& o.mask = o.matchBits ∧
    i = assemble o cw := by
  unfold decode at h
  split at h
  · cases h
  · split at h
    · cases h; exact ⟨_, ‹_›, rfl⟩
    · split at h <;> cases h

/-- A word that meets a row is taken (R111). -/
theorem decode_of_row {cw : CmdWord} {o : Opcode} (h : cw &&& o.mask = o.matchBits)
    : decode cw = .ok (assemble o cw) := by
  have h2 := h
  rw [← packAll_fields cw, row_packAll_iff] at h2
  simp [decode, h2.1, Opcode.ofCode_code, h]

/-- No word meets two rows (R111). -/
theorem row_unique {cw : CmdWord} {o o' : Opcode} (h : cw &&& o.mask = o.matchBits)
    (h' : cw &&& o'.mask = o'.matchBits) : o = o' := by
  rw [← packAll_fields cw, row_packAll_iff] at h h'
  exact Opcode.code_inj (h.1 ▸ h'.1)

theorem packFields_eq (op : BitVec 4) (xf yf : BitVec 16) (r g b : Byte)
    : packFields op xf yf r g b = packAll op 0#4 xf yf r g b := rfl

/-- A signed 16-bit integer is its own remainder. -/
theorem bmod_of_fitsSigned16 {x : Int} (h : fitsSigned16 x = true) : x.bmod 65536 = x := by
  simp only [fitsSigned16, Bool.and_eq_true, decide_eq_true_eq] at h
  rw [Int.bmod_eq_of_le] <;> omega

/-- The word of a command meets its own row (R110, R111). -/
theorem encode_meets_row (i : Instr) : encode i &&& i.opcode.mask = i.opcode.matchBits := by
  cases i <;> simp only [encode, packFields_eq, row_packAll_iff] <;> simp [Instr.opcode]

end Sys2Proof
end

