-- ==== Sys2Proof/Laws/Memory.lean ====
section
/-! SUPPORT. The laws of the framebuffer as a list of pairs: the canonical form is kept, a read after a write, and what reads
say about two framebuffers in canonical form. -/

namespace Sys2Proof
namespace Machine

@[simp] theorem Memory.read_nil (a : Nat) : Memory.read [] a = 0#32 := rfl

@[simp] theorem Memory.wf_nil : Memory.wf [] = true := rfl

theorem Memory.wfFrom_cons (lo b : Nat) (x : Word) (rest : Memory) :
    Memory.wfFrom lo ((b, x) :: rest) = true ↔ lo ≤ b ∧ x ≠ 0#32 ∧ Memory.wfFrom (b + 1) rest = true := by
  simp [Memory.wfFrom, and_assoc]

theorem Memory.wfFrom_mono {lo lo' : Nat} (h : lo' ≤ lo) {m : Memory} (hm : Memory.wfFrom lo m = true) :
    Memory.wfFrom lo' m = true := by
  cases m with
  | nil => rfl
  | cons p rest =>
    obtain ⟨b, x⟩ := p
    rw [Memory.wfFrom_cons] at hm ⊢
    exact ⟨Nat.le_trans h hm.1, hm.2⟩

/-- Below its first index a framebuffer reads 0. -/
theorem Memory.read_of_lt {m : Memory} {lo a : Nat} (hm : Memory.wfFrom lo m = true) (h : a < lo) : m.read a = 0#32 := by
  cases m with
  | nil => rfl
  | cons p rest =>
    obtain ⟨b, x⟩ := p
    rw [Memory.wfFrom_cons] at hm
    have : a < b := by omega
    simp [Memory.read, this]

theorem Memory.wfFrom_write {m : Memory} {lo a : Nat} (w : Word) (hm : Memory.wfFrom lo m = true) (h : lo ≤ a) :
    Memory.wfFrom lo (m.write a w) = true := by
  induction m generalizing lo with
  | nil =>
    by_cases hw : w = 0#32 <;> simp [Memory.write, Memory.wfFrom, hw, h]
  | cons p rest ih =>
    obtain ⟨b, x⟩ := p
    rw [Memory.wfFrom_cons] at hm
    unfold Memory.write
    split
    · split
      · rw [Memory.wfFrom_cons]; exact hm
      · rw [Memory.wfFrom_cons, Memory.wfFrom_cons]; exact ⟨h, ‹_›, by omega, hm.2⟩
    · split
      · split
        · exact Memory.wfFrom_mono (by omega) hm.2.2
        · rw [Memory.wfFrom_cons]; subst_vars; exact ⟨h, ‹_›, hm.2.2⟩
      · rw [Memory.wfFrom_cons]; exact ⟨hm.1, hm.2.1, ih hm.2.2 (by omega)⟩

/-- Every write keeps the canonical form. -/
theorem Memory.wf_write {m : Memory} (a : Nat) (w : Word) (hm : m.wf = true) : (m.write a w).wf = true :=
  Memory.wfFrom_write w hm (Nat.zero_le a)

theorem Memory.read_write_from {m : Memory} {lo : Nat} (a b : Nat) (w : Word) (hm : Memory.wfFrom lo m = true) :
    (m.write a w).read b = if b = a then w else m.read b := by
  induction m generalizing lo with
  | nil =>
    by_cases hw : w = 0#32
    · simp [Memory.write, hw]
    · simp only [Memory.write, hw, if_false, Memory.read]
      split <;> split <;> first | rfl | omega
  | cons p rest ih =>
    obtain ⟨c, x⟩ := p
    rw [Memory.wfFrom_cons] at hm
    have hlow : ∀ d, d ≤ c → Memory.read rest d = 0#32 := fun d hd => Memory.read_of_lt hm.2.2 (by omega)
    unfold Memory.write
    split
    · by_cases hw : w = 0#32
      · subst hw
        by_cases hb : b = a
        · subst hb; simp [Memory.read, *]
        · simp [hb]
      · simp only [hw, if_false]
        by_cases hb : b = a
        · subst hb; simp [Memory.read]
        · rw [Memory.read]
          split
          · have : b < c := by omega
            simp [Memory.read, this]
          · simp
    · split
      · subst_vars
        by_cases hw : w = 0#32
        · subst hw
          simp only [if_true]
          by_cases hb : b = c
          · subst hb; simp [hlow]
          · simp only [hb, if_false, Memory.read]
            split
            · exact hlow b (by omega)
            · rfl
        · simp only [hw, if_false, Memory.read]
          by_cases hb : b = c
          · subst hb; simp
          · simp [hb]
      · simp only [Memory.read, ih hm.2.2]
        by_cases hb : b = a
        · subst hb
          simp [*]
        · simp [hb]

/-- A read after a write gives the value written at its index and the old value everywhere else (R69). -/
theorem Memory.read_write {m : Memory} (a b : Nat) (w : Word) (hm : m.wf = true) :
    (m.write a w).read b = if b = a then w else m.read b := Memory.read_write_from a b w hm

/-- Two framebuffers in canonical form that read alike are the same list. -/
theorem Memory.ext_from {m m' : Memory} {lo : Nat} (hm : Memory.wfFrom lo m = true) (hm' : Memory.wfFrom lo m' = true)
    (h : ∀ a, m.read a = m'.read a) : m = m' := by
  induction m generalizing m' lo with
  | nil =>
    cases m' with
    | nil => rfl
    | cons p rest =>
      obtain ⟨b, x⟩ := p
      rw [Memory.wfFrom_cons] at hm'
      have := h b
      simp [Memory.read] at this
      exact absurd this.symm hm'.2.1
  | cons p rest ih =>
    obtain ⟨b, x⟩ := p
    have hm0 := hm
    rw [Memory.wfFrom_cons] at hm
    cases m' with
    | nil =>
      have := h b
      simp [Memory.read] at this
      exact absurd this hm.2.1
    | cons q rest' =>
      obtain ⟨c, y⟩ := q
      rw [Memory.wfFrom_cons] at hm'
      have hb := h b
      have hc := h c
      simp only [Memory.read, lt_irrefl, if_false, if_true] at hb hc
      have hbc : b = c := by
        rcases Nat.lt_trichotomy b c with hlt | heq | hgt
        · simp [hlt] at hb; exact absurd hb hm.2.1
        · exact heq
        · simp [hgt] at hc; exact absurd hc.symm hm'.2.1
      subst hbc
      simp at hb
      subst hb
      congr 1
      refine ih hm.2.2 hm'.2.2 fun a => ?_
      by_cases ha : a ≤ b
      · rw [Memory.read_of_lt hm.2.2 (by omega), Memory.read_of_lt hm'.2.2 (by omega)]
      · have := h a
        have h1 : ¬ a < b := by omega
        have h2 : ¬ a = b := by omega
        simpa [Memory.read, h1, h2] using this

theorem Memory.ext {m m' : Memory} (hm : m.wf = true) (hm' : m'.wf = true) (h : ∀ a, m.read a = m'.read a) : m = m' :=
  Memory.ext_from hm hm' h

/-- The framebuffer after reset is in canonical form. -/
theorem State.reset_fb_wf : State.reset.fb.wf = true := rfl

end Machine
end Sys2Proof
end

