-- ==== Sys2Proof/Laws/Ops.lean ====
section
/-! SUPPORT. What each shared operation can do, said once: the admission gate, a cell access, and the outcomes of the meanings
and of the two agents. -/

namespace Sys2Proof
namespace Machine

/-- The gate lets a command through exactly where it is admitted (R281). -/
theorem admission_eq_none (i : Instr) (s : State) : admission i s = none ↔ Admitted i s := by
  unfold admission Admitted PortFree
  cases hio : s.io <;> by_cases hop : s.hostOp = .idle <;> cases i <;> simp [hop]

theorem whenAdmitted_of_admitted {i : Instr} {s : State} (h : Admitted i s) (go : Outcome) : whenAdmitted i s go = go := by
  rw [whenAdmitted, (admission_eq_none i s).2 h]

theorem whenAdmitted_of_not {i : Instr} {s : State} (h : ¬ Admitted i s) (go : Outcome) :
    ∃ why, whenAdmitted i s go = .refused why := by
  rw [← admission_eq_none] at h
  obtain ⟨why, hw⟩ := Option.ne_none_iff_exists'.1 h
  exact ⟨why, by rw [whenAdmitted, hw]⟩

/-- A gated meaning answers a next state exactly where the command is admitted and its effect does. -/
theorem whenAdmitted_eq_next {i : Instr} {s t : State} {go : Outcome} :
    whenAdmitted i s go = .next t ↔ Admitted i s ∧ go = .next t := by
  by_cases h : Admitted i s
  · rw [whenAdmitted_of_admitted h]; exact ⟨fun hg => ⟨h, hg⟩, And.right⟩
  · obtain ⟨why, hw⟩ := whenAdmitted_of_not h go
    simp [hw, h]

/-- A cell access answers a next state exactly inside the framebuffer (R60). -/
theorem accessCell_eq_next {s t : State} {a : Nat} {go : Word → Outcome} :
    accessCell s a go = .next t ↔ a < s.cfg.fbWords ∧ go (s.fb.read a) = .next t := by
  unfold accessCell
  split <;> simp [*]

theorem accessCell_of_lt {s : State} {a : Nat} (h : a < s.cfg.fbWords) (go : Word → Outcome) :
    accessCell s a go = go (s.fb.read a) := by simp [accessCell, h]

/-- Where a command is admitted, its meaning is its own effect. -/
theorem exec_of_admitted {i : Instr} {s : State} (h : Admitted i s) :
    exec i s = match i with
      | .setPixel x y r g b =>
        (match locatePixel s.cfg x y with
        | none => .next (s.complete .ok)
        | some (px, py) => .next (resumeSetPixel s 0 s.pwmBits.toNat px py r g b))
      | .fill r g b => .next (resumeFill s 0 s.pwmBits.toNat r g b)
      | .clear => .next (resumeClear s 0 s.pwmBits.toNat)
      | .updateScreen => .next ((s.setPos s.pos.request).hold .waitFrame)
      | .setPwmBits n =>
        (match planeCount n with
        | none => .next (s.complete (.fail .invalidPwmBits))
        | some p => .next (applyPwmBits p s))
      | .incBright => .next ((s.setBrightness (nextBrighter s.brightness)).complete .ok)
      | .decBright => .next ((s.setBrightness (nextDarker s.brightness)).complete .ok)
      | .getInput => .next (s.readInput.complete (.okValue s.inputWord))
      | .getWidth => .next (s.complete (.okValue (BitVec.ofNat 32 s.cfg.width)))
      | .getHeight => .next (s.complete (.okValue (BitVec.ofNat 32 s.cfg.height)))
      | .start => .next ((s.setTask .running).complete .ok)
      | .stop => .next ((s.setTask .stopping).hold .waitJoin) := by
  cases i <;> exact whenAdmitted_of_admitted h _

/-- A command is refused exactly where it is not admitted; no meaning faults (R281). -/
theorem exec_of_not_admitted {i : Instr} {s : State} (h : ¬ Admitted i s) : ∃ why, exec i s = .refused why := by
  cases i <;> exact whenAdmitted_of_not h _

theorem exec_of_admitted_next {i : Instr} {s : State} (h : Admitted i s) : ∃ t, exec i s = .next t := by
  rw [exec_of_admitted h]
  cases i <;> first | exact ⟨_, rfl⟩ | (dsimp only; split <;> exact ⟨_, rfl⟩)

theorem exec_eq_next {i : Instr} {s t : State} (h : exec i s = .next t) : Admitted i s := by
  by_contra hn
  obtain ⟨why, hw⟩ := exec_of_not_admitted hn
  simp [hw] at h

/-- What the three resuming helpers answer: the port holds the command with its next micro-step, or the command is
complete. -/
theorem resumeSetPixel_cases (s : State) (next planes x y : Nat) (r g b : Byte) :
    (next < planes ∧ resumeSetPixel s next planes x y r g b = s.hold (.setPixel next planes x y r g b)) ∨
    (planes ≤ next ∧ resumeSetPixel s next planes x y r g b = s.complete .ok) := by
  unfold resumeSetPixel; split
  · exact .inl ⟨‹_›, rfl⟩
  · exact .inr ⟨Nat.le_of_not_lt ‹_›, rfl⟩

theorem resumeFill_cases (s : State) (next planes : Nat) (r g b : Byte) :
    (next < planes * planeCells s.cfg ∧ resumeFill s next planes r g b = s.hold (.fill next planes r g b)) ∨
    (planes * planeCells s.cfg ≤ next ∧ resumeFill s next planes r g b = s.complete .ok) := by
  unfold resumeFill; split
  · exact .inl ⟨‹_›, rfl⟩
  · exact .inr ⟨Nat.le_of_not_lt ‹_›, rfl⟩

theorem resumeClear_cases (s : State) (next planes : Nat) :
    (next < planes * planeCells s.cfg ∧ resumeClear s next planes = s.hold (.clear next planes)) ∨
    (planes * planeCells s.cfg ≤ next ∧ resumeClear s next planes = s.complete .ok) := by
  unfold resumeClear; split
  · exact .inl ⟨‹_›, rfl⟩
  · exact .inr ⟨Nat.le_of_not_lt ‹_›, rfl⟩

/-- What the update of R211 answers: held in a frame, done whole outside one. -/
theorem applyPwmBits_cases (n : BitVec 4) (s : State) :
    (s.pos.inFrame = true ∧ applyPwmBits n s = s.hold (.setPwmBits n)) ∨
    (s.pos.inFrame = false ∧ applyPwmBits n s = (s.resize n).complete .ok) := by
  unfold applyPwmBits
  cases s.pos.inFrame <;> simp

/-- Everything a turn of SCAN can do. -/
theorem scanStep_cases (s : State) :
    (s.scanReady = false ∧ scanStep s = .next s) ∨
    (s.scanReady = true ∧ s.pos.inFrame = true ∧ scanStep s = scanInFrame s) ∨
    (s.scanReady = true ∧ s.pos.inFrame = false ∧ s.task = .stopping ∧ scanStep s = .next (scanConfirm s)) ∨
    (s.scanReady = true ∧ s.pos.inFrame = false ∧ s.task ≠ .stopping ∧ s.frameStartEnabled = true ∧
      scanStep s = .next (scanFrameStart s)) := by
  unfold scanStep
  cases hr : s.scanReady
  · simp
  · cases hf : s.pos.inFrame
    · by_cases ht : s.task = .stopping
      · simp [ht]
      · simp only [State.scanReady, hf, ht, Bool.and_eq_true] at hr
        simp [ht]
        simpa using hr.2
    · simp

/-- Everything a turn of HOST can do, but for the command it takes on an idle port. -/
theorem hostStep_idle {s : State} (h : s.hostOp = .idle) : hostStep s = hostIssue s := by simp [hostStep, h]

/-- The idle port takes the word at its head. -/
theorem hostIssue_cons {s : State} {cw : CmdWord} {rest : List CmdWord} (h : s.port = cw :: rest) :
    hostIssue s = issueWord cw s.popPort := by simp [hostIssue, h]

/-- One step is one agent's step. -/
theorem step_cases (s : State) : step s = hostStep s.takeTurn ∨ step s = scanStep s.takeTurn := by
  unfold step
  cases nextTurn s
  · exact .inl rfl
  · exact .inr rfl

theorem iterate_zero (f : State → Outcome) (s : State) : iterate f 0 s = .next s := rfl

theorem iterate_succ {f : State → Outcome} {s t : State} (h : f s = .next t) (n : Nat) :
    iterate f (n + 1) s = iterate f n t := by simp [iterate, h]

/-- A run of m + n turns is a run of m and then one of n. -/
theorem iterate_add {f : State → Outcome} {s t : State} {m : Nat} (h : iterate f m s = .next t) (n : Nat) :
    iterate f (m + n) s = iterate f n t := by
  induction m generalizing s with
  | zero => cases h; simp
  | succ m ih =>
    rw [Nat.add_right_comm]
    cases hf : f s with
    | next u => rw [iterate_succ hf] at h ⊢; exact ih h
    | fault why => simp [iterate, hf] at h
    | refused why => simp [iterate, hf] at h

/-! The turns made in advance matter to no agent's step, only to whose step it is. -/

theorem accessCell_withTurns {s : State} {ts : List Agent} {a : Nat} {go go' : Word → Outcome}
    (hgo : ∀ w, go' w = mapNext (fun t => t.withTurns ts) (go w)) :
    accessCell (s.withTurns ts) a go' = mapNext (fun t => t.withTurns ts) (accessCell s a go) := by
  by_cases h : a < s.cfg.fbWords
  · rw [accessCell_of_lt h, accessCell_of_lt (s := s.withTurns ts) h]; exact hgo _
  · simp [accessCell, h, mapNext]

theorem resumeSetPixel_withTurns (s : State) (ts : List Agent) (n p x y : Nat) (r g b : Byte) :
    resumeSetPixel (s.withTurns ts) n p x y r g b = (resumeSetPixel s n p x y r g b).withTurns ts := by
  unfold resumeSetPixel; split <;> rfl

theorem resumeFill_withTurns (s : State) (ts : List Agent) (n p : Nat) (r g b : Byte) :
    resumeFill (s.withTurns ts) n p r g b = (resumeFill s n p r g b).withTurns ts := by
  by_cases h : n < p * planeCells s.cfg <;> simp only [resumeFill, State.withTurns_cfg, h, if_true, if_false] <;> rfl

theorem resumeClear_withTurns (s : State) (ts : List Agent) (n p : Nat) :
    resumeClear (s.withTurns ts) n p = (resumeClear s n p).withTurns ts := by
  by_cases h : n < p * planeCells s.cfg <;> simp only [resumeClear, State.withTurns_cfg, h, if_true, if_false] <;> rfl

theorem applyPwmBits_withTurns (s : State) (ts : List Agent) (n : BitVec 4) :
    applyPwmBits n (s.withTurns ts) = (applyPwmBits n s).withTurns ts := by
  cases h : s.pos.inFrame <;> simp only [applyPwmBits, State.withTurns_pos, h] <;> rfl

/-- Everything a new construction can answer (R290, R295). -/
theorem reconstruct_cases (c : Config) (s : State) :
    (s.mayReset = false ∧ reconstruct c s = .refused .resetNotAdmitted) ∨
    (s.mayReset = true ∧ construct c = .built (State.initial c) ∧ reconstruct c s = .next (s.replacedBy (State.initial c))) ∨
    (s.mayReset = true ∧ (∃ why, construct c = .fatal why) ∧ reconstruct c s = .next (s.replacedBy (State.dead c))) ∨
    (s.mayReset = true ∧ construct c = .notABlock ∧ reconstruct c s = .refused .notABlock) := by
  unfold reconstruct construct
  cases s.mayReset <;> cases c.wf <;> cases c.foldOk <;> cases c.ioInitOk <;> simp

/-- The lit time of one run of events after another is the sum of both, the second from the panel the first leaves (R194). -/
theorem litTicks_append (c : Config) (r col bit : Nat) (es fs : List Event) (q : Panel) :
    litTicks c r col bit q (es ++ fs) = litTicks c r col bit q es + litTicks c r col bit (es.foldl (Panel.next c) q) fs := by
  induction es generalizing q with
  | nil => simp [litTicks]
  | cons e es ih => cases e <;> simp [litTicks, ih, Panel.next, Nat.add_assoc]

end Machine
end Sys2Proof
end

