-- ==== Sys2Proof/Laws/Params.lean ====
section
/-! SUPPORT. The parameters: what a block's parameters meet,
    the luminance table and the ramp over all channel values, and sums of
plane weights. -/

namespace Sys2Proof

/-- in an ascending list, later entries are at least earlier ones -/
theorem ascending_getD {l : List Nat} (h : ascending l = true) {i j : Nat} (hij : i ≤ j) (hj : j < l.length) :
    l.getD i 0 ≤ l.getD j 0 := by
  induction l generalizing i j with
  | nil => simp at hj
  | cons a l ih =>
    cases l with
    | nil => simp at hj; subst hj; simp at hij; subst hij; simp
    | cons b l =>
      simp only [ascending, Bool.and_eq_true, decide_eq_true_eq] at h
      cases j with
      | zero => simp at hij; subst hij; simp
      | succ j =>
        have hj' : j < (b :: l).length := by simpa using hj
        cases i with
        | zero =>
          have := ih h.2 (Nat.zero_le j) hj'
          simp only [List.getD_cons_zero, List.getD_cons_succ] at this ⊢
          omega
        | succ i =>
          simpa using ih h.2 (by omega : i ≤ j) hj'

set_option maxRecDepth 4000 in
/-- `LUT_REF` meets R100 and its values are 8-bit (R103). -/
theorem lumRef_facts : lumRef.length = 256 ∧ ascending lumRef = true ∧ lumRef.getD 0 0 = 0 ∧
    lumRef.all (fun v => decide (v < 256)) = true := by decide

/-- An admissible table never steps down (R100). -/
theorem LumTable.apply_mono {t : LumTable} (h : t.wf = true) {v1 v2 : Byte} (hv : v1.toNat ≤ v2.toNat) :
    (t.apply v1).toNat ≤ (t.apply v2).toNat := by
  have h2 : v2.toNat < 256 := v2.isLt
  cases t with
  | reference =>
    obtain ⟨hl, ha, -, hb⟩ := lumRef_facts
    have hlt : ∀ v : Byte, lumRef.getD v.toNat 0 < 256 := by
      intro v
      have hv : v.toNat < lumRef.length := by rw [hl]; exact v.isLt
      rw [List.all_eq_true] at hb
      rw [List.getD_eq_getElem _ _ hv]
      simpa using hb _ (List.getElem_mem hv)
    simp only [LumTable.apply, BitVec.toNat_ofNat]
    rw [Nat.mod_eq_of_lt (hlt v1), Nat.mod_eq_of_lt (hlt v2)]
    exact ascending_getD ha hv (by rw [hl]; exact h2)
  | table es =>
    simp only [LumTable.wf, Bool.and_eq_true, decide_eq_true_eq] at h
    have key : ∀ i, (es.getD i 0#8).toNat = (es.map BitVec.toNat).getD i 0 := by
      intro i; simp [List.getD_eq_getElem?_getD]; cases es[i]? <;> simp
    simp only [LumTable.apply, key]
    exact ascending_getD h.2 hv (by simp [h.1.1]; exact h2)

/-- An admissible table keeps 0 (R100). -/
theorem LumTable.apply_zero {t : LumTable} (h : t.wf = true) : t.apply 0#8 = 0#8 := by
  cases t with
  | reference => simp [LumTable.apply]; decide
  | table es => simp only [LumTable.wf, Bool.and_eq_true, decide_eq_true_eq] at h; exact h.1.2

/-- The shift ramp stays below `2^p` (R105 (c)). -/
theorem shiftRamp_lt {v p : Nat} (hv : v < 256) (h1 : 1 ≤ p) (h11 : p ≤ 11) : shiftRamp v p < 2 ^ p := by
  unfold shiftRamp
  split
  · rw [Nat.shiftRight_eq_div_pow]
    apply Nat.div_lt_of_lt_mul
    rw [← pow_add]
    have : 8 - p + p = 8 := by omega
    rw [this]; exact hv
  · rw [Nat.shiftLeft_eq]
    calc v * 2 ^ (p-8) < 2^8 * 2^(p-8) := by apply Nat.mul_lt_mul_of_pos_right hv; positivity
      _ = 2 ^ p := by rw [← pow_add]; congr 1; omega

/-- The shift ramp never steps down (R101). -/
theorem shiftRamp_mono {v w p : Nat} (h : v ≤ w) : shiftRamp v p ≤ shiftRamp w p := by
  unfold shiftRamp
  split
  · rw [Nat.shiftRight_eq_div_pow, Nat.shiftRight_eq_div_pow]; exact Nat.div_le_div_right h
  · rw [Nat.shiftLeft_eq, Nat.shiftLeft_eq]; exact Nat.mul_le_mul_right _ h

/-- What a row of an admissible ramp table meets (R101). -/
theorem rampRowsOk_getD {rows : List (List Nat)} {q : Nat} (h : rampRowsOk q rows = true) {i : Nat}
    (hi : i < rows.length) :
    let row := rows.getD i []
    row.length = 256 ∧ row.getD 0 0 = 0 ∧ ascending row = true ∧ ∀ v ∈ row, v < 2 ^ (q + i) := by
  induction rows generalizing q i with
  | nil => simp at hi
  | cons r rows ih =>
    simp only [rampRowsOk, Bool.and_eq_true, decide_eq_true_eq, List.all_eq_true] at h
    obtain ⟨⟨⟨⟨a, b⟩, c⟩, d⟩, e⟩ := h
    cases i with
    | zero => exact ⟨a, b, c, d⟩
    | succ i =>
      have := ih e (i := i) (by simpa using hi)
      rw [show q + (i+1) = q + 1 + i by omega]
      simpa using this

/-- The three properties of every admissible ramp (R101). -/
theorem Ramp.apply_props {r : Ramp} (h : r.wf = true) {p : Nat} (h1 : 1 ≤ p) (h11 : p ≤ 11) :
    r.apply 0#8 p = 0 ∧ (∀ v, r.apply v p < 2 ^ p) ∧ ∀ v1 v2 : Byte, v1.toNat ≤ v2.toNat →
        r.apply v1 p ≤ r.apply v2 p := by
  cases r with
  | shift =>
    refine ⟨?_, fun v => shiftRamp_lt v.isLt h1 h11, fun _ _ => shiftRamp_mono⟩
    simp [Ramp.apply, shiftRamp]
  | table rows =>
    simp only [Ramp.wf, Bool.and_eq_true, decide_eq_true_eq] at h
    have h11' : rows.length = 11 := h.1
    have := rampRowsOk_getD h.2 (i := p - 1) (by omega)
    simp only [Ramp.apply]
    rw [show 1 + (p-1) = p by omega] at this
    obtain ⟨a, b, c, d⟩ := this
    refine ⟨by simpa using b, fun v => ?_, fun v1 v2 hv => ascending_getD c hv (by rw [a]; exact v2.isLt)⟩
    have hv : v.toNat < (rows.getD (p-1) []).length := by rw [a]; exact v.isLt
    rw [List.getD_eq_getElem _ _ hv]
    exact d _ (List.getElem_mem hv)

/-- The conditions on a block's parameters, one by one (R291 step 1). -/
theorem Config.wf_iff {c : Config} (h : c.wf = true) : 1 ≤ c.chain ∧ c.panelRows % 2 = 0 ∧ 1 ≤ c.doubleRows ∧
    c.doubleRows ≤ 16 ∧
    c.layout.wf = true ∧ c.lut.wf = true ∧ c.ramp.wf = true ∧ 1 ≤ c.dwellUnit ∧ 1 ≤ c.pwmBitsReset.toNat ∧
        c.pwmBitsReset.toNat ≤ 11 ∧
    1 ≤ c.brightnessReset.toNat ∧ c.brightnessReset.toNat ≤ 10 := by
  simpa [Config.wf, and_assoc] using h

/-- A block's layout is well formed (R91). -/
theorem Config.layout_wf {c : Config} (h : c.wf = true) : c.layout.wf = true := by
  simp only [Config.wf, Bool.and_eq_true] at h; exact h.1.1.1.1.1.1.1.2

/-- A block has a column and a double row. -/
theorem Config.cols_pos {c : Config} (h : c.wf = true) : 0 < c.cols ∧ 0 < c.doubleRows := by
  simp only [Config.wf, Bool.and_eq_true, decide_eq_true_eq] at h
  unfold Config.cols; omega

/-- A number below `2^p` is the sum of the weights of its set bits (R102). -/
theorem sum_bits (n : Nat) : ∀ p, n < 2 ^ p →
    ((List.range p).map fun k => if n.testBit k then 2 ^ k else 0).sum = n := by
  intro p
  induction p generalizing n with
  | zero => intro h; simp at h; subst h; simp
  | succ p ih =>
    intro h
    rw [List.range_succ_eq_map, List.map_cons, List.map_map, List.sum_cons]
    have hd : n / 2 < 2 ^ p := by rw [Nat.div_lt_iff_lt_mul (by norm_num)]; rw [pow_succ] at h; exact h
    have : ((List.range p).map ((fun k => if n.testBit k then 2 ^ k else 0) ∘ Nat.succ)).sum = 2 * (n / 2) := by
      rw [← ih _ hd, ← List.sum_map_mul_left]
      congr 1
      apply List.map_congr_left
      intro k _
      simp only [Function.comp, Nat.succ_eq_add_one, Nat.testBit_succ, pow_succ]
      split <;> omega
    rw [this]
    simp only [Nat.testBit_zero, pow_zero]
    rcases Nat.mod_two_eq_zero_or_one n with h | h <;> simp [h] <;> omega

end Sys2Proof
end

