-- ==== Sys2Proof/Laws/Pixel.lean ====
section
/-! SUPPORT. Pixels and cells: where a pixel's cells lie, what replacing a triplet does to a cell,
    and the step of a `SetPixel` in
progress. -/

namespace Sys2Proof
namespace Machine

/-- A cell of one of the first p planes has an index below theirs (R61). -/
theorem addr_lt_planes {c : Config} {k r col : Nat} {p : Nat} (hk : k < p) (hr : r < c.doubleRows)
    (hc : col < c.cols) :
    c.addr k r col < p * planeCells c := by
  unfold Config.addr planeCells
  have h1 : k * c.doubleRows + r + 1 ≤ p * c.doubleRows := by
    calc k * c.doubleRows + r + 1 ≤ k * c.doubleRows + c.doubleRows := by omega
      _ = (k+1) * c.doubleRows := by ring
      _ ≤ p * c.doubleRows := Nat.mul_le_mul_right _ hk
  calc (k * c.doubleRows + r) * c.cols + col < (k * c.doubleRows + r) * c.cols + c.cols := by omega
    _ = (k * c.doubleRows + r + 1) * c.cols := by ring
    _ ≤ p * c.doubleRows * c.cols := Nat.mul_le_mul_right _ h1
    _ = p * (c.doubleRows * c.cols) := by ring

/-- `FB_WORDS` in planes (R8). -/
theorem fbWords_eq (c : Config) : c.fbWords = 11 * planeCells c := by
  unfold Config.fbWords planeCells planesMax; ring

/-- An index in the first p planes exists (R60, R65). -/
theorem lt_fbWords {c : Config} {p a : Nat} (hp : p ≤ 11) (h : a < p * planeCells c) : a < c.fbWords := by
  rw [fbWords_eq]; exact Nat.lt_of_lt_of_le h (Nat.mul_le_mul_right _ hp)

/-- A plane of a block has a cell. -/
theorem planeCells_pos {c : Config} (h : c.wf = true) : 0 < planeCells c := by
  simp only [Config.wf, Bool.and_eq_true, decide_eq_true_eq] at h
  unfold planeCells Config.cols
  have : 0 < c.chain := by omega
  have : 0 < c.doubleRows := by omega
  positivity

/-- The plane of a cell from its index (R61). -/
theorem addr_div_planeCells {c : Config} {k r col : Nat} (hr : r < c.doubleRows) (hc : col < c.cols)
    : c.addr k r col / planeCells c = k := by
  have h0 : r * c.cols + col < planeCells c := by
    unfold planeCells
    calc r * c.cols + col < r * c.cols + c.cols := by omega
      _ = (r+1) * c.cols := by ring
      _ ≤ _ := Nat.mul_le_mul_right _ hr
  have : c.addr k r col = (r * c.cols + col) + planeCells c * k := by unfold Config.addr planeCells; ring
  rw [this, Nat.add_mul_div_left _ _ (by omega), Nat.div_eq_of_lt h0]; omega

/-- The double row of a pixel (R62). -/
theorem mod_lt_rows {c : Config} {y : Nat} (hy : y < 2 * c.doubleRows) : y % c.doubleRows < c.doubleRows :=
  Nat.mod_lt _ (by omega)

/-- distinct planes of a pixel lie in distinct cells -/
theorem pixelCell_inj {c : Config} {k k' x y : Nat} (hx : x < c.cols) (hy : y < 2 * c.doubleRows)
    (h : pixelCell c k x y = pixelCell c k' x y) : k = k' := by
  unfold pixelCell Config.addr at h
  have hc : 0 < c.cols := by omega
  have h2 : (k * c.doubleRows + y % c.doubleRows) * c.cols = (k' * c.doubleRows + y % c.doubleRows) * c.cols := by omega
  have h3 := Nat.eq_of_mul_eq_mul_right hc h2
  have h4 : k * c.doubleRows = k' * c.doubleRows := by omega
  exact Nat.eq_of_mul_eq_mul_right (by omega) h4

/-- A located pixel is on the physical surface (R151, R233). -/
theorem locatePixel_lt {c : Config} {x y : Int} {px py : Nat} (h : locatePixel c x y = some (px, py))
    : px < c.cols ∧ py < 2 * c.doubleRows := by
  have base : ∀ x y, basePixel c x y = some (px, py) → px < c.cols ∧ py < 2 * c.doubleRows := by
    intro x y h
    unfold basePixel at h
    split at h
    · cases h
    · simp only [Option.some.injEq, Prod.mk.injEq] at h; omega
  unfold locatePixel at h
  split at h
  · cases h
  · exact base _ _ h

/-- What replacing a triplet leaves to be read back (R152, R161). -/
theorem planeBits_of_setTriplet {c : Config} (hw : c.layout.wf = true)
    {fb : Memory} {w : Word} {p k x y : Nat} {r g b : Byte}
    (h : fb.read (pixelCell c k x y) = setTriplet c w y p k r g b) :
    planeBits c fb x y k = (c.planeBit r p k, c.planeBit g p k, c.planeBit b p k) := by
  have hn := Layout.triplets_nodup hw
  have b1 := Layout.wf_bound hw .r1; have b2 := Layout.wf_bound hw .g1; have b3 := Layout.wf_bound hw .b1
  have b4 := Layout.wf_bound hw .r2; have b5 := Layout.wf_bound hw .g2; have b6 := Layout.wf_bound hw .b2
  simp only [Layout.pos, WordField.width] at b1 b2 b3 b4 b5 b6
  simp only [List.nodup_cons, List.mem_cons, List.not_mem_nil, not_or, or_false] at hn
  obtain ⟨⟨n1, n2, n3, n4, n5⟩, ⟨m1, m2, m3, m4⟩, ⟨o1, o2, o3⟩, ⟨q1, q2⟩, s1, -⟩ := hn
  unfold planeBits
  rw [h]
  unfold setTriplet tripletMask tripletBits
  by_cases hy : y < c.doubleRows
  · simp only [hy, if_true, (Layout.rgbMasks_eq _).1, BitVec.getLsbD_or, BitVec.getLsbD_and, BitVec.getLsbD_not,
      Layout.getLsbD_t1]
    have e1 : c.layout.r1 < 32 := by omega
    have e2 : c.layout.g1 < 32 := by omega
    have e3 : c.layout.b1 < 32 := by omega
    simp [e1, e2, e3, n1, n2, m1, Ne.symm n1, Ne.symm n2, Ne.symm m1]
  · simp only [hy, if_false, (Layout.rgbMasks_eq _).2, BitVec.getLsbD_or, BitVec.getLsbD_and, BitVec.getLsbD_not,
      Layout.getLsbD_t2]
    have e1 : c.layout.r2 < 32 := by omega
    have e2 : c.layout.g2 < 32 := by omega
    have e3 : c.layout.b2 < 32 := by omega
    simp [e1, e2, e3, q1, q2, s1, Ne.symm q1, Ne.symm q2, Ne.symm s1]

/-- Replacing a triplet keeps every other bit of the cell (R152). -/
theorem setTriplet_and_not_tripletMask {c : Config} (w : Word) (y p k : Nat) (r g b : Byte) :
    setTriplet c w y p k r g b &&& ~~~ tripletMask c y = w &&& ~~~ tripletMask c y := by
  apply BitVec.eq_of_getLsbD_eq
  intro i hi
  unfold setTriplet tripletMask tripletBits
  by_cases hy : y < c.doubleRows
  · simp only [hy, if_true, (Layout.rgbMasks_eq _).1, BitVec.getLsbD_or, BitVec.getLsbD_and, BitVec.getLsbD_not,
      Layout.getLsbD_t1, hi]
    by_cases h1 : i = c.layout.r1 <;> by_cases h2 : i = c.layout.g1 <;> by_cases h3 : i = c.layout.b1 <;> simp [h1,
        h2, h3]
  · simp only [hy, if_false, (Layout.rgbMasks_eq _).2, BitVec.getLsbD_or, BitVec.getLsbD_and, BitVec.getLsbD_not,
      Layout.getLsbD_t2, hi]
    by_cases h1 : i = c.layout.r2 <;> by_cases h2 : i = c.layout.g2 <;> by_cases h3 : i = c.layout.b2 <;> simp [h1,
        h2, h3]

/-- Replacing a triplet keeps a cell inside `RGB_MASK` (R24). -/
theorem setTriplet_and_not_rgbMask {c : Config} {w : Word} (h : w &&& ~~~ c.layout.rgbMask = 0#32) (y p k : Nat)
    (r g b : Byte) :
    setTriplet c w y p k r g b &&& ~~~ c.layout.rgbMask = 0#32 := by
  unfold setTriplet tripletBits
  refine or_and_eq_zero (and_and_eq_zero h) ?_
  split
  · exact Layout.t1_and_not_rgbMask _ _ _ _
  · exact Layout.t2_and_not_rgbMask _ _ _ _

/-- `FillWord` lies inside `RGB_MASK` (R24, R155). -/
theorem fillWord_and_not_rgbMask (c : Config) (p k : Nat) (r g b : Byte)
    : fillWord c p k r g b &&& ~~~ c.layout.rgbMask = 0#32 :=
  or_and_eq_zero (Layout.t1_and_not_rgbMask _ _ _ _) (Layout.t2_and_not_rgbMask _ _ _ _)

/-- A plane count that is taken is in 1..11 (R210). -/
theorem planeCount_range {n : Int} {p : BitVec 4} (h : planeCount n = some p) : 1 ≤ p.toNat ∧ p.toNat ≤ 11 := by
  unfold planeCount at h
  split at h
  · cases h
  · cases h; simp; omega

/-- The step of a `SetPixel` in progress (R152). -/
theorem hostStep_setPixel {s : State} {k p x y : Nat} {r g b : Byte} (ho : s.hostOp = .setPixel k p x y r g b)
    (hx : x < s.cfg.cols) (hy : y < 2 * s.cfg.doubleRows) (hk : k < p) (hp : p ≤ 11) :
    hostStep s = .next (resumeSetPixel (s.storeCell (pixelCell s.cfg k x y)
        (setTriplet s.cfg (s.fb.read (pixelCell s.cfg k x y)) y p k r g b)) (k+1) p x y r g b) := by
  simp only [hostStep, ho, microSetPixel]
  exact accessCell_of_lt (lt_fbWords hp (addr_lt_planes hk (mod_lt_rows hy) hx)) _

/-- In a frame SCAN has its step (R191). -/
theorem scanStep_inFrame {s : State} (h : s.io = .ready) (hf : s.pos.inFrame = true)
    : scanStep s = scanInFrame s := by
  simp [scanStep, State.scanReady, h, hf]

end Machine
end Sys2Proof
end

