-- ==== Sys2Proof/Laws/Invariant.lean ====
section
/-! SUPPORT. Which updates of the state keep the block's invariant. -/

namespace Sys2Proof
namespace Machine

theorem BlockInv.takeTurn {s : State} (h : BlockInv s) : BlockInv s.takeTurn := by
  obtain ⟨a,b,c,d,e,f,g,i,j⟩ := h
  exact ⟨a,b,c,d,e,f,⟨g.row,g.plane,g.column,g.colours,g.sampled,g.frame⟩,i,⟨j.request,j.stopping,j.frame⟩⟩

theorem BlockInv.popPort {s : State} (h : BlockInv s) : BlockInv s.popPort := by
  obtain ⟨a,b,c,d,e,f,g,i,j⟩ := h
  exact ⟨a,b,c,d,e,f,⟨g.row,g.plane,g.column,g.colours,g.sampled,g.frame⟩,i,⟨j.request,j.stopping,j.frame⟩⟩

/-- While the port holds no waiting command nothing is requested and nothing is stopping (R192, R249). -/
theorem BlockInv.quiet {s : State} (h : BlockInv s) (h1 : s.hostOp ≠ .waitFrame) (h2 : s.hostOp ≠ .waitJoin)
    : s.pos.frameReq = false ∧ s.task ≠ .stopping :=
  ⟨by by_contra hc; simp only [Bool.not_eq_false] at hc; exact h1 (h.control.request hc),
      fun hc => h2 (h.control.stopping hc)⟩

/-- storing a triplet word in an active cell keeps the invariant -/
theorem BlockInv.storeCell {s : State} {a : Nat} {w : Word} (h : BlockInv s)
    (ha : a < s.pwmBits.toNat * planeCells s.cfg) (hw : w &&& ~~~ s.cfg.layout.rgbMask = 0#32)
    : BlockInv (s.storeCell a w) := by
  obtain ⟨i1,i2,i3,i4,i5,i6,g,i,j⟩ := h
  refine ⟨i1, Memory.wf_write _ _ i2, fun b => ?_, fun b hb => ?_,
      i5,i6,⟨g.row,g.plane,g.column,g.colours,g.sampled,g.frame⟩,i,⟨j.request,j.stopping,j.frame⟩⟩
  · simp only [State.storeCell_fb, State.storeCell_cfg, Memory.read_write _ _ _ i2]
    split
    · exact hw
    · exact i3 b
  · simp only [State.storeCell_fb, State.storeCell_cfg, State.storeCell_pwmBits, Memory.read_write _ _ _ i2] at hb ⊢
    rw [if_neg (by omega)]; exact i4 b hb

theorem BlockInv.complete {s : State} (h : BlockInv s) (hr : s.pos.frameReq = false) (hs : s.task ≠ .stopping)
    (r : Result) : BlockInv (s.complete r) := by
  obtain ⟨i1,i2,i3,i4,i5,i6,g,i,j⟩ := h
  exact ⟨i1,i2,i3,i4,i5,i6,⟨g.row,g.plane,g.column,g.colours,g.sampled,g.frame⟩,trivial,⟨fun h => by simp [hr] at h, fun h => absurd h hs, j.frame⟩⟩

theorem BlockInv.hold {s : State} {op : HostOp} (h : BlockInv s) (hr : s.pos.frameReq = false)
    (hs : s.task ≠ .stopping) (ho : HostOpOk (s.hold op)) : BlockInv (s.hold op) := by
  obtain ⟨i1,i2,i3,i4,i5,i6,g,i,j⟩ := h
  exact ⟨i1,i2,i3,i4,i5,i6,⟨g.row,g.plane,g.column,g.colours,g.sampled,g.frame⟩,ho,⟨fun h => by simp [hr] at h,
      fun h => absurd h hs, j.frame⟩⟩

theorem BlockInv.setBrightness {s : State} {br : BitVec 4} (h : BlockInv s) (hb : 1 ≤ br.toNat ∧ br.toNat ≤ 10)
    : BlockInv (s.setBrightness br) := by
  obtain ⟨i1,i2,i3,i4,i5,i6,g,i,j⟩ := h
  exact ⟨i1,i2,i3,i4,i5,hb,⟨g.row,g.plane,g.column,g.colours,g.sampled,g.frame⟩,i,⟨j.request,j.stopping,j.frame⟩⟩

theorem BlockInv.writeOutput {s : State} (h : BlockInv s) (w : Word) : BlockInv (s.writeOutput w) := by
  obtain ⟨a,b,c,d,e,f,g,i,j⟩ := h
  exact ⟨a,b,c,d,e,f,⟨g.row,g.plane,g.column,g.colours,g.sampled,g.frame⟩,i,⟨j.request,j.stopping,j.frame⟩⟩

theorem BlockInv.loadDwell {s : State} (h : BlockInv s) (d : Nat) : BlockInv (s.loadDwell d) := by
  obtain ⟨a,b,c,d,e,f,g,i,j⟩ := h
  exact ⟨a,b,c,d,e,f,⟨g.row,g.plane,g.column,g.colours,g.sampled,g.frame⟩,i,⟨j.request,j.stopping,j.frame⟩⟩

/-- A position written, where it is a legal one and makes no request of its own. -/
theorem BlockInv.setPos {s : State} {q : Pos} (h : BlockInv s) (hq : PosOk (s.setPos q)) (h1 : q.frameReq = true →
    s.pos.frameReq = true) (h2 : q.inFrame = true → s.task = .running ∨ s.task = .stopping ∨ q.frameReq = true)
    : BlockInv (s.setPos q) := by
  obtain ⟨a,b,c,d,e,f,g,i,j⟩ := h
  exact ⟨a,b,c,d,e,f,hq,i,⟨fun h => j.request (h1 h),j.stopping,h2⟩⟩

end Machine
end Sys2Proof
end

