-- ==== Sys2Proof/Laws/PerInstr.lean ====
section
/-! SUPPORT. The per-instruction family `EncodeRow`: the word of a command meets the mask and match of its own row of R111,
one lemma for each constructor. -/

namespace Sys2Proof
namespace Laws
namespace EncodeRow

/-- The word of a command spells it in the sense of R111. -/
def Statement (i : Instr) : Prop := encode i &&& i.opcode.mask = i.opcode.matchBits

theorem setPixel (x y : Int) (r g b : Byte) : Statement (.setPixel x y r g b) := encode_meets_row _

theorem fill (r g b : Byte) : Statement (.fill r g b) := encode_meets_row _

theorem clear : Statement .clear := encode_meets_row _

theorem updateScreen : Statement .updateScreen := encode_meets_row _

theorem setPwmBits (n : Int) : Statement (.setPwmBits n) := encode_meets_row _

theorem incBright : Statement .incBright := encode_meets_row _

theorem decBright : Statement .decBright := encode_meets_row _

theorem getInput : Statement .getInput := encode_meets_row _

theorem getWidth : Statement .getWidth := encode_meets_row _

theorem getHeight : Statement .getHeight := encode_meets_row _

theorem start : Statement .start := encode_meets_row _

theorem stop : Statement .stop := encode_meets_row _

end EncodeRow
end Laws
end Sys2Proof
end

