-- ==== Sys2Proof/Tests/Slice0.lean ====
section
/-! SUPPORT. The checks of this model: ill-formed commands, the decoding of written-out words, one step of each command and of
the sequencer against 95_test_vectors.md, and for each statement with hypotheses a state and operands that meet them. -/

namespace Sys2Proof
namespace Tests
open Machine

/-- The parameters of Program 1 (95_test_vectors.md): one double row of 32 columns, two planes, level 3. -/
def tiny : Config := { Config.reference with panelRows := 2, pwmBitsReset := 2#4, brightnessReset := 3#4 }

/-- The parameters of Program 3: the fold of 64 x 64 over four panels. -/
def folded : Config := { Config.reference with chain := 4, fold := .square 64, pwmBitsReset := 1#4 }

/-- `LAYOUT_ALT` (95_test_vectors.md, 2.9). -/
def layoutAlt : Layout where
  sw1 := 20
  sw2 := 21
  joy0 := 24
  joy1 := 25
  joy2 := 26
  joy3 := 27
  outputEnable := 12
  clock := 10
  strobe := 11
  row := 6
  r1 := 0
  g1 := 1
  b1 := 2
  r2 := 3
  g2 := 4
  b2 := 5

/-- A small block at rest, the same with its task running, and with a frame in progress at a given phase. -/
def ready : State := State.initial tiny
def running : State := { ready with task := .running }
def frameAt (ph : Phase) (k c : Nat) : State :=
  { running with pos := { Pos.initial with inFrame := true, pFrame := 2#4, k := k, c := c, phase := ph } }

/-- The state an outcome goes on with; a stop gives the reset state, whose fields no test below expects. -/
def after (o : Machine.Outcome) : State := (nextOf o).getD State.reset

/-! ### Well-formedness refuses what the command word cannot spell (R110) -/

theorem test_wf_x : (Instr.setPixel 32768 0 0#8 0#8 0#8).wf = false := by decide
theorem test_wf_y : (Instr.setPixel 0 (-32769) 0#8 0#8 0#8).wf = false := by decide
theorem test_wf_n : (Instr.setPwmBits 32768).wf = false ∧ (Instr.setPwmBits (-32769)).wf = false := by decide

/-! ### Words written out bit by bit from R110 and R111: op, z, xf, yf, rf, gf, bf -/

/-- V91: op 1, z 0, xf and yf all ones, rf 1, gf 2, bf 3. -/
theorem test_decode_setPixel :
    decode 0b0001000011111111111111111111111111111111000000010000001000000011#64 = .ok (.setPixel (-1) (-1) 1#8 2#8 3#8) := by
  decide
/-- V92. -/
theorem test_decode_fill :
    decode 0b0010000000000000000000000000000000000000111111111000000001000000#64 = .ok (.fill 255#8 128#8 64#8) := by decide
theorem test_decode_clear :
    decode 0b0011000000000000000000000000000000000000000000000000000000000000#64 = .ok .clear := by decide
theorem test_decode_updateScreen :
    decode 0b0100000000000000000000000000000000000000000000000000000000000000#64 = .ok .updateScreen := by decide
/-- V95: n = 12 in xf. -/
theorem test_decode_setPwmBits :
    decode 0b0101000000000000000011000000000000000000000000000000000000000000#64 = .ok (.setPwmBits 12) := by decide
theorem test_decode_incBright :
    decode 0b0110000000000000000000000000000000000000000000000000000000000000#64 = .ok .incBright := by decide
theorem test_decode_decBright :
    decode 0b0111000000000000000000000000000000000000000000000000000000000000#64 = .ok .decBright := by decide
theorem test_decode_getInput :
    decode 0b1000000000000000000000000000000000000000000000000000000000000000#64 = .ok .getInput := by decide
theorem test_decode_getWidth :
    decode 0b1001000000000000000000000000000000000000000000000000000000000000#64 = .ok .getWidth := by decide
theorem test_decode_getHeight :
    decode 0b1010000000000000000000000000000000000000000000000000000000000000#64 = .ok .getHeight := by decide
theorem test_decode_start :
    decode 0b1011000000000000000000000000000000000000000000000000000000000000#64 = .ok .start := by decide
theorem test_decode_stop :
    decode 0b1100000000000000000000000000000000000000000000000000000000000000#64 = .ok .stop := by decide
/-- V99. -/
theorem test_decode_illegal :
    decode 0x0000000000000000#64 = .reject .noSuchOp ∧ decode 0xD000000000000000#64 = .reject .noSuchOp ∧
    decode 0x1100000000000000#64 = .reject .zNotZero ∧ decode 0x3000000000000001#64 = .reject .unusedNotZero ∧
    decode 0x2000010000000000#64 = .reject .unusedNotZero := by decide

/-! ### The bit layout and the channel path -/

/-- V1, V5 and V100, V101 (the second layout). -/
theorem test_encodeSignals :
    Layout.reference.encodeSignals { row := 5, clock := 1, r1 := 1, b2 := 1 } = 0x00042A80#32 ∧
    Layout.reference.encodeSignals { row := -1 } = 0x00001E00#32 ∧
    layoutAlt.encodeSignals { row := 5, clock := 1, r1 := 1, b2 := 1 } = 0x00000561#32 ∧
    layoutAlt.usedMask = 0x0F301FFF#32 := by decide
/-- V11, V13, V14. -/
theorem test_fields :
    Layout.reference.setField 0x00042A80#32 .row 9 = 0x00043280#32 ∧
    Layout.reference.setField 0xFFF80000#32 .r1 1 = 0xFFF82000#32 ∧
    Layout.reference.decodeInput 0xFFFFFFD6#32 =
      { sw1 := false, sw2 := true, joy0 := true, joy1 := false, joy2 := true, joy3 := false } := by decide
/-- Section 2.2: `RAMP` and `LUT_REF`. -/
theorem test_ramp :
    shiftRamp 200 5 = 25 ∧ shiftRamp 127 1 = 0 ∧ shiftRamp 255 11 = 2040 ∧ LumTable.reference.apply 128#8 = 47#8 ∧
    LumTable.reference.apply 200#8 = 137#8 := by decide
/-- V63, V65, V67, V69. -/
theorem test_fold :
    locatePixel folded 0 32 = some (127, 31) ∧ locatePixel folded 0 63 = some (127, 0) ∧
    locatePixel folded 10 40 = some (117, 23) ∧ locatePixel folded 64 0 = none ∧ locatePixel folded 5 (-1) = none := by decide

/-! ### One step of each command -/

/-- Program 1, command 2, plane 1 of the pixel (31, 1): green in triplet 2 beside what triplet 1 holds. -/
theorem test_setPixel_microStep :
    (after (hostStep { ready with fb := [(63, 0x2000#32)], hostOp := .setPixel 1 2 31 1 0#8 128#8 0#8 })).fb
      = [(63, 0x22000#32)] := by decide
/-- V27. -/
theorem test_setPixel_dropped : exec (.setPixel 32 0 255#8 255#8 255#8) ready = .next { ready with results := [.ok] } := by rfl
/-- V29: planes 0 and 1. -/
theorem test_fill_cells :
    (after (hostStep { ready with hostOp := .fill 0 2 255#8 0#8 64#8 })).fb = [(0, 0x5A000#32)] ∧
    (after (hostStep { ready with hostOp := .fill 63 2 255#8 0#8 64#8 })).fb = [(63, 0x12000#32)] := by decide
theorem test_clear_cell :
    (after (hostStep { ready with fb := [(5, 0x2000#32), (6, 0x4000#32)], hostOp := .clear 5 2 })).fb = [(6, 0x4000#32)] := by
  decide
theorem test_updateScreen_requests :
    (after (exec .updateScreen ready)).pos.frameReq = true ∧ (after (exec .updateScreen ready)).hostOp = .waitFrame := by decide
/-- V85. -/
theorem test_updateScreen_refused : nextOf (exec .updateScreen running) = none := by decide
/-- V50. -/
theorem test_setPwmBits_fails :
    exec (.setPwmBits 12) ready = .next { ready with results := [.fail .invalidPwmBits] } := by rfl
/-- V52: the content is lost though the count stays. -/
theorem test_setPwmBits_clears :
    (after (exec (.setPwmBits 2) { ready with fb := [(5, 0x2000#32)] })).fb = [] ∧
    (after (exec (.setPwmBits 11) ready)).pwmBits = 11#4 := by decide
/-- V53 and R213's example. -/
theorem test_incBright_wraps :
    (after (exec .incBright { ready with brightness := 10#4 })).brightness = 1#4 ∧
    (after (exec .incBright { ready with brightness := 9#4 })).brightness = 10#4 := by decide
/-- V54 and R214's example. -/
theorem test_decBright_wraps :
    (after (exec .decBright { ready with brightness := 1#4 })).brightness = 10#4 ∧
    (after (exec .decBright { ready with brightness := 2#4 })).brightness = 1#4 := by decide
/-- V57: no masking. -/
theorem test_getInput_whole :
    (after (exec .getInput { ready with env := { Env.initial with inputs := [0xFFFFFFFF#32, 0#32] } })).results
      = [.okValue 0xFFFFFFFF#32] := by decide
/-- V32 and Program 3, commands 8 and 9. -/
theorem test_getWidth :
    (after (exec .getWidth (State.initial { folded with fold := .off }))).results = [.okValue 128#32] ∧
    (after (exec .getWidth (State.initial folded))).results = [.okValue 64#32] := by decide
theorem test_getHeight :
    (after (exec .getHeight (State.initial { folded with fold := .off }))).results = [.okValue 32#32] ∧
    (after (exec .getHeight (State.initial folded))).results = [.okValue 64#32] := by decide
/-- V80, V83. -/
theorem test_start :
    (after (exec .start ready)).task = .running ∧ nextOf (exec .start { ready with task := .joined }) = none := by decide
/-- V81, V84. -/
theorem test_stop :
    (after (exec .stop running)).task = .stopping ∧ (after (exec .stop running)).hostOp = .waitJoin ∧
    nextOf (exec .stop ready) = none := by decide

/-! ### One step of the sequencer -/

/-- V40: the first column, both writes. -/
theorem test_shift :
    (after (scanStep { frameAt .shiftLo 0 0 with fb := [(0, 0x2000#32)] })).trace = [.write 0x2000#32] ∧
    (after (scanStep (frameAt .shiftHi 0 0))).trace = [.write 0x80#32] ∧
    (after (scanStep (frameAt .shiftHi 0 31))).pos.phase = .strobeHi := by decide
/-- V44 and V42. -/
theorem test_control_words :
    Layout.reference.ctl 15 false true false = 0x1F00#32 ∧ Layout.reference.ctl 15 false false true = 0x1E40#32 ∧
    Config.reference.dwellTicks 3 5 = 40 ∧ Config.reference.dwellTicks 10 10 = 10240 := by decide
/-- V105: with `OE_ON = 0` the enable bit is 0 only in the write that opens the dwell. -/
theorem test_polarity :
    (after (scanStep { frameAt .oeAssert 0 0 with cfg := { tiny with layout := layoutAlt, oeOn := false } })).trace
      = [.write 0#32] ∧
    (after (scanStep { frameAt .oeRelease 0 0 with cfg := { tiny with layout := layoutAlt, oeOn := false } })).trace
      = [.write 0x1000#32] := by decide
/-- R190: the next plane, and the end of the frame. -/
theorem test_advance :
    (after (scanStep (frameAt .oeRelease 0 31))).pos.k = 1 ∧ (after (scanStep (frameAt .oeRelease 1 31))).pos.inFrame = false := by
  decide

/-! ### The hypotheses of the statements are met -/

/-- A state with a dark framebuffer and two planes of `tiny` meets the invariant where its port, task and position agree. -/
theorem dark_inv {s : State} (hc : s.cfg = tiny) (hf : s.fb = []) (hp : s.pwmBits = 2#4) (hb : s.brightness = 3#4)
    (hpos : s.pos.r = 0 ∧ s.pos.k < 2 ∧ s.pos.c < 32 ∧ s.pos.cur = 0#32 ∧ (s.pos.pFrame = 1#4 ∨ s.pos.pFrame = 2#4))
    (hfr : s.pos.inFrame = true → s.pos.pFrame = 2#4) (ho : HostOpOk s) (hctl : ControlOk s) : BlockInv s where
  params := by rw [hc]; decide
  canonical := by rw [hf]; rfl
  triplets a := by rw [hf]; simp [Memory.read]
  inactive a _ := by rw [hf]; rfl
  planes := by rw [hp]; decide
  level := by rw [hb]; decide
  pos := by
    obtain ⟨h1, h2, h3, h4, h5⟩ := hpos
    refine ⟨by rw [h1, hc]; decide, by omega, by rw [hc]; exact h3, by rw [h4]; simp, ?_, fun h => ?_⟩
    · rcases h5 with h | h <;> rw [h] <;> decide
    · rw [hfr h, hp]; exact ⟨h2, rfl⟩
  hostOp := ho
  control := hctl

theorem ready_inv : BlockInv ready :=
  dark_inv rfl rfl rfl rfl (by decide) (by decide) trivial ⟨by decide, by decide, by decide⟩

theorem running_inv : BlockInv running :=
  dark_inv rfl rfl rfl rfl (by decide) (by decide) trivial ⟨by decide, by decide, by decide⟩

theorem frame_inv : BlockInv (frameAt .shiftLo 0 0) :=
  dark_inv rfl rfl rfl rfl (by decide) (by decide) trivial ⟨by decide, by decide, by decide⟩

theorem last_release_inv : BlockInv (frameAt .oeRelease 1 31) :=
  dark_inv rfl rfl rfl rfl (by decide) (by decide) trivial ⟨by decide, by decide, by decide⟩

theorem witness_DecodeInvertsEncode :
    (Instr.setPixel 32767 (-32768) 255#8 0#8 1#8).wf = true ∧ (Instr.setPwmBits (-32768)).wf = true := by decide

theorem witness_DecodedOperands :
    decode 0x107FFF8000FF0001#64 = .ok (.setPixel 32767 (-32768) 255#8 0#8 1#8) ∧
    decode 0x5080000000000000#64 = .ok (.setPwmBits (-32768)) ∧ decode 0x2000000000FF8040#64 = .ok (.fill 255#8 128#8 64#8) ∧
    decode 0xC000000000000000#64 = .ok .stop := by decide

theorem witness_StepRunsTheDecodedCommand :
    nextTurn (ready.withFetchWord 64 0x6000000000000000) = .host ∧
    (ready.withFetchWord 64 0x6000000000000000).hostOp = .idle ∧
    (ready.withFetchWord 64 0x6000000000000000).port = [0x6000000000000000#64] ∧
    decode 0x6000000000000000#64 = .ok .incBright ∧ decode (tableWord 64 0x6000000000000000) = .ok .incBright := by decide

theorem witness_StepGivesTheTurn :
    nextTurn (ready.withTurns [.scan]) = .scan ∧ nextTurn (ready.withTurns [.host]) = .host ∧
    ({ ready with port := [0#64] } : State).hostReady = true ∧ ({ ready with port := [0#64] } : State).scanReady = false ∧
    ready.env.turns = [] ∧ running.hostReady = false ∧ running.scanReady = true := by decide

theorem witness_IllegalWord :
    nextTurn (ready.withFetchWord 64 0xD000000000000000) = .host ∧ PortFree (ready.withFetchWord 64 0xD000000000000000) ∧
    (ready.withFetchWord 64 0xD000000000000000).port = [0xD000000000000000#64] ∧
    decode 0xD000000000000000#64 = .reject .noSuchOp := by decide

theorem witness_CommandsRunExactlyWhereAdmitted :
    Admitted .stop running ∧ ¬ Admitted .stop ready ∧ (State.dead tiny).io = .failed ∧
    (PortFree running ∧ running.task ≠ .created) ∧ (PortFree ready ∧ ready.task ≠ .running) ∧
    (PortFree running ∧ (running.task = .running ∨ running.task = .stopping)) := by decide

theorem witness_Construction :
    ({ tiny with chain := 0 } : Config).wf = false ∧ ({ tiny with panelRows := 34 } : Config).wf = false ∧
    (({ folded with chain := 2 } : Config).wf = true ∧ ({ folded with chain := 2 } : Config).foldOk = false) ∧
    (({ tiny with ioInitOk := false } : Config).wf = true ∧ ({ tiny with ioInitOk := false } : Config).foldOk = true) ∧
    (folded.wf = true ∧ folded.foldOk = true ∧ folded.ioInitOk = true) := by decide

theorem witness_FoldGeometryCheck :
    (folded.wf = true ∧ folded.fold = .square 64 ∧ 64 % 2 = 0 ∧ folded.cols = 2 * 64 ∧ 2 * folded.doubleRows = 64 / 2) ∧
    (({ folded with fold := .square 65 } : Config).wf = true ∧ 65 % 2 ≠ 0) ∧
    (({ folded with chain := 2 } : Config).wf = true ∧ ({ folded with chain := 2 } : Config).cols ≠ 2 * 64) := by decide

theorem witness_FailedBlockStaysDark : (State.dead tiny).io = .failed ∧ ∃ t, step (State.dead tiny) = .next t := ⟨rfl, _, rfl⟩

theorem witness_ReconstructionOnlyAtRest :
    (folded.wf = true ∧ folded.foldOk = true ∧ folded.ioInitOk = true) ∧
    ((ready.task = .created ∨ ready.task = .joined) ∧ ready.pos.inFrame = false) ∧
    ¬ ((running.task = .created ∨ running.task = .joined) ∧ running.pos.inFrame = false) := by decide

theorem witness_layouts : Layout.reference.wf = true ∧ layoutAlt.wf = true ∧ WordField.row ≠ WordField.clock := by decide

theorem witness_channel_values : tiny.wf = true ∧ 1 ≤ 1 ∧ 1 ≤ 11 ∧ 11 ≤ 11 ∧ (127#8).toNat ≤ (128#8).toNat := by decide

/-- Just outside and just inside the physical surface, and just outside the logical square. -/
theorem witness_OutOfRangePixels :
    (PortFree ready ∧ ready.cfg.fold = .off ∧ (ready.cfg.cols : Int) ≤ 32 ∧ 2 * (ready.cfg.doubleRows : Int) ≤ 2 ∧ (-1 : Int) < 0) ∧
    ((0 : Int) ≤ 31 ∧ (31 : Int) < ready.cfg.cols ∧ (0 : Int) ≤ 1 ∧ (1 : Int) < 2 * (ready.cfg.doubleRows : Int)) ∧
    (PortFree (State.initial folded) ∧ folded.fold = .square 64 ∧ ((64 : Nat) : Int) ≤ 64) := by decide

theorem witness_Fold :
    folded.fold = .square 64 ∧ folded.foldOk = true ∧ ((64 : Nat) : Int) ≤ 64 ∧
    ((0 : Int) ≤ 63 ∧ (63 : Int) < (64 : Nat) ∧ (0 : Int) ≤ 31 ∧ (31 : Int) < (64 / 2 : Nat)) ∧
    ((0 : Int) ≤ 0 ∧ ((64 / 2 : Nat) : Int) ≤ 32 ∧ (32 : Int) < (64 : Nat)) ∧ locatePixel folded 0 32 = some (127, 31) ∧
    127 < folded.cols ∧ 31 < 2 * folded.doubleRows := by decide

/-- Both halves of the surface, and the last plane as well as an earlier one. -/
theorem witness_SetPixelMicroStep :
    31 < tiny.cols ∧ (0 < tiny.doubleRows ∧ tiny.doubleRows ≤ 1 ∧ 1 < 2 * tiny.doubleRows) ∧ 2 ≤ 11 ∧
    (PortFree ready ∧ 1 ≤ ready.pwmBits.toNat ∧ locatePixel ready.cfg 31 1 = some (31, 1)) ∧
    ({ ready with hostOp := .setPixel 0 2 31 1 0#8 128#8 0#8 } : State).hostOp = .setPixel 0 2 31 1 0#8 128#8 0#8 ∧ 0 + 1 < 2 ∧
    1 + 1 = 2 := by decide

theorem witness_SetPixelDrawsThePixel : BlockInv ready ∧ PortFree ready ∧ locatePixel ready.cfg 31 1 = some (31, 1) :=
  ⟨ready_inv, by decide⟩

/-- For the statements on FILL and CLEAR and on the two queries. -/
theorem witness_bulk_and_sizes :
    BlockInv ready ∧ PortFree ready ∧ ready.cfg.fold = .off ∧ PortFree (State.initial folded) ∧ folded.fold = .square 64 :=
  ⟨ready_inv, by decide⟩

theorem witness_FillWordIsBothPixelsOfTheCell :
    tiny.layout.wf = true ∧ 0 < tiny.doubleRows ∧ 0x7E000#32 &&& ~~~ tiny.layout.rgbMask = 0#32 := by decide

theorem witness_InvalidPlaneCount : PortFree ready ∧ (0 : Int) < 1 ∧ (11 : Int) < 12 ∧ (-1 : Int) < 1 := by decide

/-- Each clause of the statement, at n = 1 and n = 11. -/
theorem witness_ValidPlaneCount :
    ((1 : Int) ≤ 1 ∧ (11 : Int) ≤ 11) ∧ (PortFree ready ∧ ready.pos.inFrame = false) ∧
    (PortFree (frameAt .dwell 0 0) ∧ (frameAt .dwell 0 0).pos.inFrame = true) ∧
    (({ frameAt .dwell 0 0 with hostOp := .setPwmBits 11#4 } : State).hostOp = .setPwmBits (BitVec.ofNat 4 (11 : Int).toNat)) ∧
    (({ running with hostOp := .setPwmBits 1#4 } : State).hostOp = .setPwmBits (BitVec.ofNat 4 (1 : Int).toNat) ∧
      running.pos.inFrame = false ∧ running.task ≠ .stopping) := by decide

theorem witness_Brightness :
    PortFree ready ∧ ({ ready with brightness := 10#4 } : State).brightness = 10#4 ∧
    ({ ready with brightness := 1#4 } : State).brightness = 1#4 ∧ ready.brightness ≠ 10#4 ∧ ready.brightness ≠ 1#4 ∧
    1 ≤ (1#4).toNat ∧ (10#4).toNat ≤ 10 := by decide

theorem witness_GetInput :
    PortFree ready ∧ ready.env.inputs = [] ∧
    ({ ready with env := { Env.initial with inputs := [0x25#32] } } : State).env.inputs = [0x25#32] := by decide

theorem witness_FrameStart :
    (running.io = .ready ∧ running.pos.inFrame = false ∧ running.task ≠ .stopping ∧ running.task = .running ∧
      ∀ n, running.hostOp ≠ .setPwmBits n) ∧
    (after (exec .updateScreen ready)).pos.frameReq = true ∧
    (ready.task ≠ .stopping ∧ ¬ (ready.task = .running ∨ ready.pos.frameReq = true)) ∧
    ({ running with hostOp := .setPwmBits 3#4 } : State).hostOp = .setPwmBits 3#4 := by decide

/-- The first column, the last column and one before it. -/
theorem witness_Column :
    ((frameAt .shiftLo 0 0).io = .ready ∧ (frameAt .shiftLo 0 0).pos.inFrame = true ∧ (frameAt .shiftLo 0 0).pos.k < 11 ∧
      (frameAt .shiftLo 0 0).pos.r < (frameAt .shiftLo 0 0).cfg.doubleRows ∧ (frameAt .shiftLo 0 0).pos.phase = .shiftLo) ∧
    ((frameAt .shiftHi 1 31).pos.c + 1 = (frameAt .shiftHi 1 31).cfg.cols ∧
      (frameAt .shiftHi 1 30).pos.c + 1 < (frameAt .shiftHi 1 30).cfg.cols) := by decide

theorem witness_control_phases :
    (frameAt .strobeHi 0 31).pos.phase = .strobeHi ∧ (frameAt .strobeLo 0 31).pos.phase = .strobeLo ∧
    (frameAt .oeAssert 0 31).pos.phase = .oeAssert ∧ (frameAt .dwell 1 31).pos.phase = .dwell ∧
    (frameAt .dwell 1 31).io = .ready ∧ (frameAt .dwell 1 31).pos.inFrame = true := by decide

/-- The three ways a pass ends; the second with two double rows. -/
theorem witness_Release :
    ((frameAt .oeRelease 0 31).pos.phase = .oeRelease ∧
      (frameAt .oeRelease 0 31).pos.k + 1 < (frameAt .oeRelease 0 31).pos.pFrame.toNat) ∧
    ((frameAt .oeRelease 1 31).pos.pFrame.toNat ≤ (frameAt .oeRelease 1 31).pos.k + 1 ∧
      (frameAt .oeRelease 1 31).cfg.doubleRows ≤ (frameAt .oeRelease 1 31).pos.r + 1) ∧
    ((frameAt .oeRelease 1 31).pos.r + 1 < ({ tiny with panelRows := 4 } : Config).doubleRows) := by decide

theorem witness_FrameRealisesTheSequence :
    BlockInv running ∧ running.io = .ready ∧ running.pos.inFrame = false ∧ running.task ≠ .stopping ∧
    running.frameStartEnabled = true := ⟨running_inv, by decide⟩

/-- Red at full scale in both planes of the pixel (0, 0) (Program 1). -/
theorem witness_LitTime :
    tiny.wf = true ∧ 1 ≤ 2 ∧ 2 ≤ 11 ∧ 0 < tiny.cols ∧ 0 < 2 * tiny.doubleRows ∧
    ∀ k, k < 2 → planeBits tiny [(0, 0x2000#32), (32, 0x2000#32)] 0 0 k =
      (tiny.planeBit 255#8 2 k, tiny.planeBit 0#8 2 k, tiny.planeBit 0#8 2 k) := by decide

/-- R196's pass, from a panel that shows something else: the one red bit is lit for the one dwell of 1 tick, column 1 is not. -/
theorem test_litTicks :
    litTicks tiny 0 0 tiny.layout.r1 ⟨[], [], 0x1C0#32⟩ (passEvents tiny [(0, 0x2000#32)] 1 0 0) = 1 ∧
    litTicks tiny 0 1 tiny.layout.r1 ⟨[], [], 0x1C0#32⟩ (passEvents tiny [(0, 0x2000#32)] 1 0 0) = 0 := by decide

theorem witness_FramesAlwaysEnd :
    BlockInv (frameAt .shiftLo 0 0) ∧ (frameAt .shiftLo 0 0).io = .ready ∧ (frameAt .shiftLo 0 0).pos.inFrame = true :=
  ⟨frame_inv, by decide⟩

theorem witness_DirectUpdateScreen :
    (BlockInv ready ∧ Admitted .updateScreen ready) ∧
    (PortFree running ∧ ¬ ((running.task = .created ∨ running.task = .joined) ∧ running.pos.inFrame = false)) :=
  ⟨⟨ready_inv, by decide⟩, by decide⟩

theorem witness_Start :
    (PortFree ready ∧ ready.task = .created ∧ ready.pos.inFrame = false) ∧ (PortFree running ∧ running.task ≠ .created) := by
  decide

theorem witness_TaskMoves :
    (∃ t, step running = .next t) ∧ PortFree { ready with task := .joined } ∧ ({ ready with task := .joined } : State).task = .joined :=
  ⟨⟨_, rfl⟩, by decide⟩

/-- Between frames, in a frame, and at the last step of one. -/
theorem witness_Stop :
    (BlockInv running ∧ PortFree running ∧ running.task = .running ∧ running.pos.inFrame = false) ∧
    (BlockInv (frameAt .shiftLo 0 0) ∧ PortFree (frameAt .shiftLo 0 0) ∧ (frameAt .shiftLo 0 0).task = .running ∧
      (frameAt .shiftLo 0 0).pos.inFrame = true) ∧ BlockInv (frameAt .oeRelease 1 31) ∧
    (PortFree ready ∧ ready.task ≠ .running) :=
  ⟨⟨running_inv, by decide⟩, ⟨frame_inv, by decide⟩, last_release_inv, by decide⟩

theorem witness_Construct : construct Config.reference = .built State.reset := rfl

/-- A step from a state with the invariant, whose trace is clean and which writes an event. -/
theorem witness_steps :
    BlockInv ((frameAt .shiftLo 0 0).withTurns [.scan]) ∧ CleanTrace ((frameAt .shiftLo 0 0).withTurns [.scan]) ∧
    ((frameAt .shiftLo 0 0).withTurns [.scan]).pos.inFrame = true ∧
    ∃ t, step ((frameAt .shiftLo 0 0).withTurns [.scan]) = .next t ∧
      t.trace ≠ ((frameAt .shiftLo 0 0).withTurns [.scan]).trace := by
  refine ⟨dark_inv rfl rfl rfl rfl (by decide) (by decide) trivial ⟨by decide, by decide, by decide⟩, ?_, by decide,
    _, rfl, by decide⟩
  intro w hw
  cases hw

/-- The clauses on the cells a step changes: a pixel command in hand, a held and an issued `SetPWMBits`, and neither. -/
theorem witness_cells :
    cellInHand { ready with hostOp := .setPixel 1 2 31 1 0#8 0#8 0#8 } = some 63 ∧
    cellInHand { ready with hostOp := .fill 5 2 0#8 0#8 0#8 } = some 5 ∧ cellInHand { ready with hostOp := .clear 63 2 } = some 63 ∧
    ClearsAll { ready with hostOp := .setPwmBits 3#4 } ∧ ClearsAll { ready with port := [0x5000030000000000#64] } ∧
    ¬ ClearsAll (frameAt .shiftLo 0 0) :=
  ⟨by decide, by decide, by decide, ⟨rfl, .inl ⟨_, rfl⟩⟩, ⟨rfl, .inr ⟨rfl, _, [], 3, rfl, by decide, by decide, by decide⟩⟩,
    fun h => Bool.noConfusion h.1⟩

/-- A new construction over a block that has joined keeps ENV's draws and the words on the port (log entry 19). -/
theorem test_reconstruct :
    (after (reconstruct tiny { ready with task := .joined, port := [1#64], env := { Env.initial with inputDraws := 7 } })).env.inputDraws = 7 ∧
    (after (reconstruct tiny { ready with task := .joined, port := [1#64] })).port = [1#64] ∧
    (after (reconstruct tiny { ready with task := .joined, port := [1#64] })).task = .created := by decide

theorem witness_OutputReg : OutputRegShown (frameAt .shiftLo 0 0) ∧
    OutputRegShown { ready with outputReg := 5#32, trace := [.dwell 3, .write 5#32, .write 6#32] } :=
  ⟨(fun _ h => by cases h), (fun _ h => by cases h; rfl)⟩

theorem witness_agents : (∃ t, scanStep running = .next t) ∧ ∃ t, hostStep { ready with port := [0xB000000000000000#64] } = .next t :=
  ⟨⟨_, rfl⟩, ⟨_, rfl⟩⟩

theorem witness_memory : Memory.wf [(3, 1#32), (7, 2#32)] = true ∧ Memory.wf [(3, 1#32), (7, 0#32)] = false := by decide

end Tests
end Sys2Proof
end

section
/-! PROOFS. Channel values: the mapped value and the reconstructed duty cycle (`30_encoding.md`, R100 to R104). -/

namespace Sys2Proof
namespace Machine

/-- `ChannelMap` never steps down, with luminance correction and without (R100). -/
theorem channelMap_mono {c : Config} (hlut : c.lut.wf = true) {v1 v2 : Byte} (hv : v1.toNat ≤ v2.toNat) :
    (c.channelMap v1).toNat ≤ (c.channelMap v2).toNat := by
  unfold Config.channelMap
  split
  · exact LumTable.apply_mono hlut hv
  · exact hv

/-- The plane bits spell the ramp of the mapped value: an admissible ramp leaves no bit above plane `p - 1` (R102). -/
theorem reconstructed_eq_apply {c : Config} (hramp : c.ramp.wf = true) {p : Nat} (h1 : 1 ≤ p) (h11 : p ≤ 11) (v : Byte) :
    reconstructed c v p = c.ramp.apply (c.channelMap v) p := by
  obtain ⟨-, hlt, -⟩ := Ramp.apply_props hramp h1 h11
  exact sum_bits _ p (hlt (c.channelMap v))

/-- Settles O21: the bits spell the ramp of the mapped value, and both the map and the ramp are monotone. -/
theorem dutyCycleIsMonotone : Obligations.DutyCycleIsMonotone := by
  intro c p hwf h1 h11
  obtain ⟨-, -, -, -, -, hlut, hramp, -⟩ := Config.wf_iff hwf
  obtain ⟨-, -, hmono⟩ := Ramp.apply_props hramp h1 h11
  have hrec := reconstructed_eq_apply hramp h1 h11
  refine ⟨hrec, fun v1 v2 hv => ?_⟩
  rw [hrec v1, hrec v2]
  exact hmono _ _ (channelMap_mono hlut hv)

end Machine
end Sys2Proof
end

section
/-! PROOFS. The input signals: a field of width 1 and its one bit (`40_bit_layout.md`, R137). -/

namespace Sys2Proof
namespace Machine

/-- A field of width 1 is its one bit: it reads 1 exactly where that bit is set, for any layout (R92). -/
theorem getLsbD_pos_of_width_one (L : Layout) (w : Word) {f : WordField} (hf : f.width = 1) :
    w.getLsbD (L.pos f) = decide (L.getField w f = 1) := by
  have hbit : (L.getField w f).testBit 0 = w.getLsbD (L.pos f) := by simp [L.getField_testBit, hf]
  have hlt : L.getField w f < 2 := by simpa [hf] using L.getField_lt w f
  rw [← hbit, Nat.testBit_zero, Nat.mod_eq_of_lt hlt]

/-- Settles O19: every input field has width 1, so its bit is what `GetField` reads. -/
theorem decodeInputReadsTheInputFields : Obligations.DecodeInputReadsTheInputFields := by
  intro L w
  have hbit {f : WordField} (hf : f.width = 1) := getLsbD_pos_of_width_one L w hf
  exact ⟨hbit rfl, hbit rfl, hbit rfl, hbit rfl, hbit rfl, hbit rfl⟩

end Machine
end Sys2Proof
end

section
/-! PROOFS. Pixel commands: a dropped SETPIXEL and the run of a CLEAR (`41_pixel_ops.md`, R151, R157; `44_fold.md`, R232). -/

namespace Sys2Proof
namespace Machine

/-- A command that completes on an idle port changes only the record of results (R31, R114). -/
theorem State.complete_of_idle {s : State} (h : s.hostOp = .idle) (r : Result) :
    s.complete r = { s with results := r :: s.results } := by
  rw [State.complete, ← h]

/-! ### Dropped pixels -/

theorem basePixel_eq_none {c : Config} {x y : Int}
    (h : x < 0 ∨ (c.cols : Int) ≤ x ∨ y < 0 ∨ 2 * (c.doubleRows : Int) ≤ y) : basePixel c x y = none :=
  if_pos (by omega)

theorem basePixel_eq_some {c : Config} {x y : Int} (hx : 0 ≤ x) (hxc : x < c.cols) (hy : 0 ≤ y)
    (hyr : y < 2 * (c.doubleRows : Int)) : basePixel c x y = some (x.toNat, y.toNat) :=
  if_neg (by omega)

/-- Without the fold the host's coordinates are physical (R230). -/
theorem locatePixel_of_fold_off {c : Config} (h : c.fold = .off) (x y : Int) :
    locatePixel c x y = basePixel c x y := by
  simp [locatePixel, foldPixel, h]

/-- The fold stage drops a coordinate outside the logical square itself (R232). -/
theorem locatePixel_eq_none_of_fold_square {c : Config} {n : Nat} (h : c.fold = .square n) {x y : Int}
    (hout : x < 0 ∨ (n : Int) ≤ x ∨ y < 0 ∨ (n : Int) ≤ y) : locatePixel c x y = none := by
  simp [locatePixel, foldPixel, h, hout]

/-- A SETPIXEL that names no physical pixel completes at once (R151, R232). -/
theorem exec_setPixel_of_locatePixel_eq_none {s : State} (hport : PortFree s) {x y : Int} (r g b : Byte)
    (hloc : locatePixel s.cfg x y = none) :
    exec (.setPixel x y r g b) s = .next { s with results := .ok :: s.results } := by
  have hadm : Admitted (.setPixel x y r g b) s := ⟨hport, nofun, nofun, nofun⟩
  simp [exec_of_admitted hadm, hloc, State.complete_of_idle hport.2]

/-- Settles O23: each bounds check, physical or logical, locates no pixel outside its surface. -/
theorem outOfRangePixelsAreDropped : Obligations.OutOfRangePixelsAreDropped := by
  intro s x y r g b hport
  have hdrop := exec_setPixel_of_locatePixel_eq_none hport r g b (x := x) (y := y)
  refine ⟨fun hoff hout => hdrop ?_, fun n hsq hout => hdrop ?_, fun hoff hx hxc hy hyr => ?_⟩
  · rw [locatePixel_of_fold_off hoff, basePixel_eq_none hout]
  · exact locatePixel_eq_none_of_fold_square hsq hout
  · rw [locatePixel_of_fold_off hoff, basePixel_eq_some hx hxc hy hyr]

/-! ### The run of a CLEAR -/

/-- The framebuffer m after the cells below n have been written in ascending order, cell a with `word a` (R156, R157). -/
def Memory.writeFirst (word : Nat → Word) (m : Memory) : Nat → Memory
  | 0 => m
  | n + 1 => (Memory.writeFirst word m n).write n (word n)

theorem Memory.wf_writeFirst (word : Nat → Word) {m : Memory} (hm : m.wf = true) (n : Nat) :
    (m.writeFirst word n).wf = true := by
  induction n with
  | zero => exact hm
  | succ n ih => exact Memory.wf_write _ _ ih

theorem Memory.read_writeFirst (word : Nat → Word) {m : Memory} (hm : m.wf = true) (n a : Nat) :
    (m.writeFirst word n).read a = if a < n then word a else m.read a := by
  induction n with
  | zero => rfl
  | succ n ih =>
    rw [Memory.writeFirst, Memory.read_write _ _ _ (Memory.wf_writeFirst word hm n), ih]
    by_cases h : a = n
    · simp [h]
    · simp [h, Nat.le_iff_lt_or_eq]

/-- The micro-step of a `Clear` that stands at an active cell: the cell becomes 0 and the command goes on, whatever the
port held before (R157). -/
theorem hostStep_resumeClear {s : State} {next p : Nat} (hp : p ≤ 11) (hn : next < p * planeCells s.cfg) :
    hostStep (resumeClear s next p) = .next (resumeClear (s.storeCell next 0#32) (next + 1) p) := by
  have hheld : resumeClear s next p = s.hold (.clear next p) := if_pos hn
  rw [hheld]
  simp only [hostStep, State.hold_hostOp, microClear]
  exact accessCell_of_lt (s := s.hold (.clear next p)) (lt_fbWords hp hn) _

/-- A `Clear` that stands behind the last active cell is complete (R157). -/
theorem resumeClear_last {s : State} {p : Nat} : resumeClear s (p * planeCells s.cfg) p = s.complete .ok :=
  if_neg (Nat.lt_irrefl _)

/-- After n micro-steps of a `Clear` the cells below n are 0 and the command stands at cell n (R157). -/
theorem iterate_hostStep_resumeClear (s : State) {p : Nat} (hp : p ≤ 11) {n : Nat} (hn : n ≤ p * planeCells s.cfg) :
    iterate hostStep n (resumeClear s 0 p) =
      .next (resumeClear { s with fb := s.fb.writeFirst (fun _ => 0#32) n } n p) := by
  induction n with
  | zero => rfl
  | succ n ih =>
    have hstep := hostStep_resumeClear (s := { s with fb := s.fb.writeFirst (fun _ => 0#32) n }) hp hn
    exact (iterate_add (ih (Nat.le_of_succ_le hn)) 1).trans (iterate_succ hstep 0)

/-- A framebuffer that reads 0 everywhere shows no pixel in any plane (R161). -/
theorem planeBits_of_read_eq_zero {fb : Memory} (h : ∀ a, fb.read a = 0#32) (c : Config) (x y k : Nat) :
    planeBits c fb x y k = (false, false, false) := by
  simp [planeBits, h]

/-- Settles O28: the micro-steps write 0 to the cells of the active planes, and the inactive planes are dark by the
invariant (R24). -/
theorem clearDarkensTheFramebuffer : Obligations.ClearDarkensTheFramebuffer := by
  intro s hinv hport
  have htaken : exec .clear s = .next (resumeClear s 0 s.pwmBits.toNat) :=
    exec_of_admitted (i := .clear) ⟨hport, nofun, nofun, nofun⟩
  have hfirst : resumeClear s 0 s.pwmBits.toNat = { s with hostOp := .clear 0 s.pwmBits.toNat } :=
    if_pos (Nat.mul_pos hinv.planes.1 (planeCells_pos hinv.params))
  have hrun := iterate_hostStep_resumeClear s hinv.planes.2 (Nat.le_refl _)
  rw [resumeClear_last, State.complete_of_idle (s := { s with fb := s.fb.writeFirst _ _ }) hport.2] at hrun
  have hdark : ∀ a, (s.fb.writeFirst (fun _ => 0#32) (s.pwmBits.toNat * planeCells s.cfg)).read a = 0#32 := by
    intro a
    rw [Memory.read_writeFirst _ hinv.canonical]
    split
    · rfl
    · exact hinv.inactive a (Nat.not_lt.1 ‹_›)
  exact ⟨_, _, htaken, hfirst, hrun, rfl, hdark, planeBits_of_read_eq_zero hdark s.cfg⟩

end Machine
end Sys2Proof
end

section
/-! PROOFS. Scan-out: what a step keeps of a frame in progress (`42_scanout.md`, R195). -/

namespace Sys2Proof
namespace Machine

/-- The parameters are those of s and, where s is in a frame, so are `pwm_bits` and the plane count sampled at the frame
start (R195). -/
def SameFrame (s t : State) : Prop :=
  t.cfg = s.cfg ∧ (s.pos.inFrame = true → t.pwmBits = s.pwmBits ∧ t.pos.pFrame = s.pos.pFrame)

/-- A state with the three registers of s, in a frame or not. -/
theorem SameFrame.of_eq {s t : State} (hcfg : t.cfg = s.cfg) (hpwm : t.pwmBits = s.pwmBits)
    (hplanes : t.pos.pFrame = s.pos.pFrame) : SameFrame s t :=
  ⟨hcfg, fun _ => ⟨hpwm, hplanes⟩⟩

/-! ### HOST -/

theorem SameFrame.hold (s : State) (op : HostOp) : SameFrame s (s.hold op) := .of_eq rfl rfl rfl

theorem SameFrame.complete (s : State) (res : Result) : SameFrame s (s.complete res) := .of_eq rfl rfl rfl

/-- A command that has micro-steps is held at the next one or completes; both keep the frame. -/
theorem SameFrame.of_held_or_complete {s t : State} {op : HostOp} {res : Result} {p q : Prop}
    (h : (p ∧ t = s.hold op) ∨ (q ∧ t = s.complete res)) : SameFrame s t := by
  rcases h with ⟨-, rfl⟩ | ⟨-, rfl⟩
  · exact .hold s op
  · exact .complete s res

/-- The one operation that writes `pwm_bits` is held while a frame is in progress (R211). -/
theorem sameFrame_applyPwmBits (n : BitVec 4) (s : State) : SameFrame s (applyPwmBits n s) := by
  rcases applyPwmBits_cases n s with ⟨-, h⟩ | ⟨hout, h⟩ <;> rw [h]
  · exact .hold s _
  · exact ⟨rfl, fun hin => absurd hin (by simp [hout])⟩

/-- Taking a command keeps the frame, whichever command it is. -/
theorem sameFrame_of_exec {i : Instr} {s t : State} (h : exec i s = .next t) : SameFrame s t := by
  rw [exec_of_admitted (exec_eq_next h)] at h
  cases i with
  | setPixel x y r g b =>
    dsimp only at h
    split at h <;> cases h
    · exact .complete s .ok
    · exact .of_held_or_complete (resumeSetPixel_cases s ..)
  | fill r g b => cases h; exact .of_held_or_complete (resumeFill_cases s ..)
  | clear => cases h; exact .of_held_or_complete (resumeClear_cases s ..)
  | setPwmBits n =>
    dsimp only at h
    split at h <;> cases h
    · exact .complete s _
    · exact sameFrame_applyPwmBits _ s
  | updateScreen | incBright | decBright | getInput | getWidth | getHeight | start | stop =>
    cases h; exact .of_eq rfl rfl rfl

/-- An idle port keeps the frame: it does nothing, takes a command or answers `ILLEGAL`. -/
theorem sameFrame_of_hostIssue {s t : State} (h : hostIssue s = .next t) : SameFrame s t := by
  cases hport : s.port with
  | nil =>
    rw [hostIssue, hport] at h
    cases h; exact .of_eq rfl rfl rfl
  | cons cw rest =>
    rw [hostIssue_cons hport, issueWord] at h
    split at h
    · exact sameFrame_of_exec (s := s.popPort) h
    · split at h <;> cases h
      exact .complete s.popPort .illegal

/-- A turn of HOST issues a command, writes one cell, applies a plane count or waits. -/
theorem sameFrame_of_hostStep {s t : State} (h : hostStep s = .next t) : SameFrame s t := by
  unfold hostStep at h
  cases hop : s.hostOp <;> simp only [hop] at h
  case idle => exact sameFrame_of_hostIssue h
  case setPixel =>
    obtain ⟨-, hnext⟩ := accessCell_eq_next.1 h
    cases hnext; exact .of_held_or_complete (s := s.storeCell _ _) (resumeSetPixel_cases ..)
  case fill =>
    obtain ⟨-, hnext⟩ := accessCell_eq_next.1 h
    cases hnext; exact .of_held_or_complete (s := s.storeCell _ _) (resumeFill_cases ..)
  case clear =>
    obtain ⟨-, hnext⟩ := accessCell_eq_next.1 h
    cases hnext; exact .of_held_or_complete (s := s.storeCell _ _) (resumeClear_cases ..)
  case setPwmBits => cases h; exact sameFrame_applyPwmBits _ s
  case waitFrame | waitJoin => split at h <;> cases h <;> exact .of_eq rfl rfl rfl

/-! ### SCAN -/

theorem Pos.afterClock_pFrame (q : Pos) (cols : Nat) : (q.afterClock cols).pFrame = q.pFrame := by
  unfold Pos.afterClock; split <;> rfl

theorem Pos.afterPass_pFrame (q : Pos) (rows : Nat) : (q.afterPass rows).pFrame = q.pFrame := by
  unfold Pos.afterPass; repeat' split
  all_goals rfl

/-- The phases of a pass move the position on, but not the plane count sampled for the frame (R183). -/
theorem sameFrame_of_scanInFrame {s t : State} (h : scanInFrame s = .next t) : SameFrame s t := by
  unfold scanInFrame at h
  cases hphase : s.pos.phase <;> rw [hphase] at h
  case shiftLo =>
    obtain ⟨-, hnext⟩ := accessCell_eq_next.1 h
    cases hnext; exact .of_eq rfl rfl rfl
  case shiftHi => cases h; exact .of_eq rfl rfl (s.pos.afterClock_pFrame _)
  case oeRelease => cases h; exact .of_eq rfl rfl (s.pos.afterPass_pFrame _)
  case strobeHi | strobeLo | oeAssert | dwell => cases h; exact .of_eq rfl rfl rfl

/-- SCAN samples `pwm_bits` at a frame start only, and none is enabled in a frame (R183). -/
theorem sameFrame_of_scanStep {s t : State} (h : scanStep s = .next t) : SameFrame s t := by
  rcases scanStep_cases s with ⟨-, hs⟩ | ⟨-, -, hs⟩ | ⟨-, -, -, hs⟩ | ⟨-, hout, -, -, hs⟩ <;> rw [hs] at h
  · cases h; exact .of_eq rfl rfl rfl
  · exact sameFrame_of_scanInFrame h
  · cases h; exact .of_eq rfl rfl rfl
  · cases h; exact ⟨rfl, fun hin => absurd hin (by simp [hout])⟩

/-- Settles O55: neither agent's step changes the frame in progress; the turn drawn before it touches ENV only. -/
theorem noResizeInsideAFrame : Obligations.NoResizeInsideAFrame := by
  intro s t _ hstep
  rcases step_cases s with hagent | hagent <;> rw [hagent] at hstep
  · exact sameFrame_of_hostStep (s := s.takeTurn) hstep
  · exact sameFrame_of_scanStep (s := s.takeTurn) hstep

end Machine
end Sys2Proof
end

section
/-! PROOFS. Settings: a plane count out of range and the steps of the brightness (`43_config_ops.md`, R212 to R214). -/

namespace Sys2Proof
namespace Machine

/-! ### The plane count -/

theorem planeCount_eq_none {n : Int} (h : n < 1 ∨ 11 < n) : planeCount n = none := if_pos h

/-- Settles O30: outside 1..11 there is no plane count to apply, so the command completes with its failure. -/
theorem invalidPlaneCountFails : Obligations.InvalidPlaneCountFails := by
  intro s n hport hout
  have hadm : Admitted (.setPwmBits n) s := ⟨hport, nofun, nofun, nofun⟩
  simp [exec_of_admitted hadm, planeCount_eq_none hout, State.complete_of_idle hport.2]

/-! ### The brightness -/

/-- A level written and the command completed on an idle port: the brightness and the record of results change (R31). -/
theorem State.complete_setBrightness {s : State} (h : s.hostOp = .idle) (br : BitVec 4) (r : Result) :
    (s.setBrightness br).complete r = { s with brightness := br, results := r :: s.results } :=
  State.complete_of_idle (s := s.setBrightness br) h r

theorem nextBrighter_of_ne {br : BitVec 4} (h : br ≠ 10#4) : nextBrighter br = br + 1#4 := if_neg h

theorem nextDarker_of_ne {br : BitVec 4} (h : br ≠ 1#4) : nextDarker br = br - 1#4 := if_neg h

/-- On a free port a step up writes the brightness register and completes, whether a frame is in progress or not (R213). -/
theorem exec_incBright {s : State} (hport : PortFree s) :
    exec .incBright s = .next { s with brightness := nextBrighter s.brightness, results := .ok :: s.results } := by
  have hadm : Admitted .incBright s := ⟨hport, nofun, nofun, nofun⟩
  simp [exec_of_admitted hadm, State.complete_setBrightness hport.2]

/-- On a free port a step down writes the brightness register and completes, whether a frame is in progress or not (R214). -/
theorem exec_decBright {s : State} (hport : PortFree s) :
    exec .decBright s = .next { s with brightness := nextDarker s.brightness, results := .ok :: s.results } := by
  have hadm : Admitted .decBright s := ⟨hport, nofun, nofun, nofun⟩
  simp [exec_of_admitted hadm, State.complete_setBrightness hport.2]

/-- Settles O32: both commands write their next level, which wraps at its end and is one step away elsewhere. -/
theorem brightnessStepsWrap : Obligations.BrightnessStepsWrap := by
  intro s hport
  rw [exec_incBright hport, exec_decBright hport]
  refine ⟨fun htop => ?_, fun hbelow => ?_, fun hbottom => ?_, fun habove => ?_⟩
  · rw [htop]; rfl
  · rw [nextBrighter_of_ne hbelow]
  · rw [hbottom]; rfl
  · rw [nextDarker_of_ne habove]

end Machine
end Sys2Proof
end

section
/-! PROOFS. The fold: its construction check (`44_fold.md`, R235). -/

namespace Sys2Proof
namespace Machine

/-- With `FOLD = SQUARE(n)` the check of R291 step 2 is the condition of R235. -/
theorem Config.foldOk_of_square {c : Config} {n : Nat} (hfold : c.fold = .square n) :
    c.foldOk = true ↔ n % 2 = 0 ∧ c.cols = 2 * n ∧ 2 * c.doubleRows = n / 2 := by
  simp [Config.foldOk, hfold, and_assoc]

/-- Parameters past step 1 of R291 meet `FoldGeometry` exactly when the fold's check fails: the only later failure of
construction is `IOInitFailed`. -/
theorem construct_eq_fatal_foldGeometry {c : Config} (hwf : c.wf = true) :
    construct c = .fatal .foldGeometry ↔ ¬ c.foldOk = true := by
  unfold construct
  cases c.foldOk with
  | false => simp [hwf]
  | true => cases c.ioInitOk <;> simp [hwf]

/-- Settles O11: the fold's check is R235's condition, and its failing is the only way to `FoldGeometry`. -/
theorem foldGeometryCheck : Obligations.FoldGeometryCheck := by
  intro c n hwf hfold
  rw [ne_eq, construct_eq_fatal_foldGeometry hwf, Config.foldOk_of_square hfold]
  exact ⟨not_not_intro, id⟩

end Machine
end Sys2Proof
end

section
/-! PROOFS. The command word: the decoder against the encoder and against the opcode table (`30_encoding.md` section 4,
R109 to R113). -/

namespace Sys2Proof
namespace Machine

/-! ### Decoding an encoded command -/

/-- The operands assembled from a command's own word are the command's (R110, R112). -/
theorem assemble_encode {i : Instr} (h : i.wf = true) : assemble i.opcode (encode i) = i := by
  cases i with
  | setPixel x y r g b =>
    obtain ⟨hx, hy⟩ : fitsSigned16 x = true ∧ fitsSigned16 y = true := by simpa [Instr.wf] using h
    simp [assemble, Instr.opcode, encode, packFields_eq, fields_packAll, bmod_of_fitsSigned16 hx,
      bmod_of_fitsSigned16 hy]
  | fill r g b => simp [assemble, Instr.opcode, encode, packFields_eq, fields_packAll]
  | setPwmBits n =>
    have hn : fitsSigned16 n = true := h
    simp [assemble, Instr.opcode, encode, packFields_eq, fields_packAll, bmod_of_fitsSigned16 hn]
  | clear | updateScreen | incBright | decBright | getInput | getWidth | getHeight | start | stop => rfl

/-- Settles O2: a command's word meets its own row, and the row's operand fields hold the command's operands. -/
theorem decodeInvertsEncode : Obligations.DecodeInvertsEncode := by
  intro i hwf
  rw [decode_of_row (encode_meets_row i), assemble_encode hwf]

/-! ### The rows of the opcode table -/

/-- Settles O3: the decoder accepts the rows' words and no others, and no word meets two rows. -/
theorem decodeAcceptsExactlyTheTableRows : Obligations.DecodeAcceptsExactlyTheTableRows := by
  intro cw
  refine ⟨⟨fun ⟨i, hi⟩ => ?_, fun ⟨o, ho⟩ => ⟨_, decode_of_row ho⟩⟩, fun i hi o => ?_⟩
  · obtain ⟨o, ho, -⟩ := row_of_decode hi
    exact ⟨o, ho⟩
  · obtain ⟨o', ho', rfl⟩ := row_of_decode hi
    rw [opcode_assemble]
    exact ⟨fun ho => row_unique ho ho', fun heq => heq ▸ ho'⟩

/-! ### The operand fields -/

/-- Every 16-bit field is a signed 16-bit integer (R112). -/
theorem fitsSigned16_toInt (v : BitVec 16) : fitsSigned16 v.toInt = true := by
  have hlo := BitVec.le_toInt v
  have hhi := BitVec.toInt_lt (x := v)
  simp only [fitsSigned16, Bool.and_eq_true, decide_eq_true_eq]
  omega

/-- Assembled operands fit their fields (R112). -/
theorem wf_assemble (o : Opcode) (cw : CmdWord) : (assemble o cw).wf = true := by
  cases o <;> simp [assemble, Instr.wf, fitsSigned16_toInt]

/-- A word that meets a row is the word of the command assembled from it: the bits outside the row's operand fields are the
row's (R111, R112). -/
theorem encode_assemble {cw : CmdWord} {o : Opcode} (h : cw &&& o.mask = o.matchBits) : encode (assemble o cw) = cw := by
  have hrow := h
  rw [← packAll_fields cw, row_packAll_iff] at hrow
  obtain ⟨hop, hz, hxf, hyf, hrgb⟩ := hrow
  conv_rhs => rw [← packAll_fields cw, hop, hz]
  cases o <;> simp_all [assemble, encode, packFields_eq, Instr.opcode]

/-- Settles O4: the decoded command is assembled from the word's fields, and its own word is that word. -/
theorem decodedOperandsAreTheWordsFields : Obligations.DecodedOperandsAreTheWordsFields := by
  intro cw
  refine ⟨fun x y r g b h => ?_, fun n h => ?_, fun r g b h => ?_, fun i h => ?_⟩ <;>
    obtain ⟨o, ho, hi⟩ := row_of_decode h
  · cases o <;> cases hi
    exact ⟨rfl, rfl, rfl, rfl, rfl⟩
  · cases o <;> cases hi
    rfl
  · cases o <;> cases hi
    exact ⟨rfl, rfl, rfl⟩
  · rw [hi]
    exact ⟨wf_assemble o cw, encode_assemble ho⟩

/-- Settles O1: the decoder computes each listed word's answer. -/
theorem specWordsDecode : Obligations.SpecWordsDecode := by
  unfold Obligations.SpecWordsDecode
  decide

end Machine
end Sys2Proof
end

section
/-! PROOFS. What a turn can do: every move of HOST and of SCAN, said once, and that no move of a block with the invariant
faults (`60_exceptions.md` section 5, `42_scanout.md` section 2, `20_memory.md` section 2). -/

namespace Sys2Proof
namespace Machine

/-! ### The command an idle port takes -/

/-- Everything the taking of the command i in the state s can answer. A command that ends or is held without a change of
the plane count is no valid SETPWMBITS outside a frame (R211). -/
inductive CommandMove (s : State) : Instr → State → Prop where
  | complete (i : Instr) (r : Result) (hkeep : ∀ n, i = .setPwmBits n → 1 ≤ n → n ≤ 11 → s.pos.inFrame = true) :
      CommandMove s i (s.complete r)
  | hold (i : Instr) (op : HostOp) (hok : HostOpOk (s.hold op))
      (hkeep : ∀ n, i = .setPwmBits n → 1 ≤ n → n ≤ 11 → s.pos.inFrame = true) : CommandMove s i (s.hold op)
  | resize (n : Int) (p : BitVec 4) (hn : 1 ≤ n ∧ n ≤ 11) (hp : 1 ≤ p.toNat ∧ p.toNat ≤ 11)
      (hout : s.pos.inFrame = false) :
      CommandMove s (.setPwmBits n) ((s.resize p).complete .ok)
  | brighter : CommandMove s .incBright ((s.setBrightness (nextBrighter s.brightness)).complete .ok)
  | darker : CommandMove s .decBright ((s.setBrightness (nextDarker s.brightness)).complete .ok)
  | readInput (r : Result) : CommandMove s .getInput (s.readInput.complete r)
  | request (htask : s.task = .created ∨ s.task = .joined) (hout : s.pos.inFrame = false) :
      CommandMove s .updateScreen ((s.setPos s.pos.request).hold .waitFrame)
  | start (htask : s.task = .created) : CommandMove s .start ((s.setTask .running).complete .ok)
  | stop (htask : s.task = .running) : CommandMove s .stop ((s.setTask .stopping).hold .waitJoin)

/-- A plane count is taken exactly in 1..11 (R210, R212). -/
theorem planeCount_eq_ite (n : Int) : planeCount n = if 1 ≤ n ∧ n ≤ 11 then some (BitVec.ofNat 4 n.toNat) else none := by
  by_cases h : 1 ≤ n ∧ n ≤ 11
  · rw [if_pos h, planeCount, if_neg (by omega)]
  · rw [if_neg h, planeCount, if_pos (by omega)]

theorem commandMove_of_exec {i : Instr} {s t : State} (h : exec i s = .next t) : CommandMove s i t := by
  have hadm := exec_eq_next h
  have ⟨_, hupdate, hstart, hstop⟩ := hadm
  rw [exec_of_admitted hadm] at h
  cases i with
  | setPixel x y r g b =>
    dsimp only at h
    split at h <;> cases h
    · exact .complete _ _ nofun
    · next px py hloc =>
      obtain ⟨hx, hy⟩ := locatePixel_lt hloc
      rcases resumeSetPixel_cases s 0 s.pwmBits.toNat px py r g b with ⟨hlt, hs⟩ | ⟨-, hs⟩ <;> rw [hs]
      · exact .hold _ _ ⟨rfl, hlt, hx, hy⟩ nofun
      · exact .complete _ _ nofun
  | fill r g b =>
    cases h
    rcases resumeFill_cases s 0 s.pwmBits.toNat r g b with ⟨hlt, hs⟩ | ⟨-, hs⟩ <;> rw [hs]
    · exact .hold _ _ ⟨rfl, hlt⟩ nofun
    · exact .complete _ _ nofun
  | clear =>
    cases h
    rcases resumeClear_cases s 0 s.pwmBits.toNat with ⟨hlt, hs⟩ | ⟨-, hs⟩ <;> rw [hs]
    · exact .hold _ _ ⟨rfl, hlt⟩ nofun
    · exact .complete _ _ nofun
  | setPwmBits n =>
    dsimp only at h
    by_cases hn : 1 ≤ n ∧ n ≤ 11
    · have hp : planeCount n = some (BitVec.ofNat 4 n.toNat) := by rw [planeCount_eq_ite, if_pos hn]
      rw [hp] at h
      cases h
      rcases applyPwmBits_cases (BitVec.ofNat 4 n.toNat) s with ⟨hin, hs⟩ | ⟨hout, hs⟩ <;> rw [hs]
      · exact .hold _ _ (planeCount_range hp) fun _ _ _ _ => hin
      · exact .resize n _ hn (planeCount_range hp) hout
    · rw [planeCount_eq_ite, if_neg hn] at h
      cases h
      exact .complete _ _ fun m hm h1 h11 => by cases hm; exact absurd ⟨h1, h11⟩ hn
  | updateScreen => cases h; exact .request (hupdate rfl).1 (hupdate rfl).2
  | start => cases h; exact .start (hstart rfl)
  | stop => cases h; exact .stop (hstop rfl)
  | incBright => cases h; exact .brighter
  | decBright => cases h; exact .darker
  | getInput => cases h; exact .readInput _
  | getWidth | getHeight => cases h; exact .complete _ _ nofun

/-! ### A turn of HOST -/

/-- Everything a turn of HOST that goes on can do. -/
inductive HostMove (s : State) : State → Prop where
  /-- there is no word to take, or the command in progress waits on -/
  | wait (hcell : cellInHand s = none) (hkeep : ¬ ClearsAll s) : HostMove s s
  /-- what the port waited for has come (R192, R248) -/
  | waited (hdone : s.hostOp = .waitFrame ∧ s.pos.frameReq = false ∨ s.hostOp = .waitJoin ∧ s.task = .joined) :
      HostMove s (s.complete .ok)
  /-- a held plane count is applied (R211) -/
  | resize (n : BitVec 4) (hop : s.hostOp = .setPwmBits n) (hout : s.pos.inFrame = false) :
      HostMove s ((s.resize n).complete .ok)
  /-- a micro-step of a pixel command writes its cell, and the command ends or goes on (R152, R156, R157) -/
  | store (a : Nat) (w : Word) (t : State) (hcell : cellInHand s = some a)
      (hactive : HostOpOk s → a < s.pwmBits.toNat * planeCells s.cfg)
      (hword : s.fb.read a &&& ~~~ s.cfg.layout.rgbMask = 0#32 → w &&& ~~~ s.cfg.layout.rgbMask = 0#32)
      (hgo : t = (s.storeCell a w).complete .ok ∨
        ∃ op, t = (s.storeCell a w).hold op ∧ (HostOpOk s → HostOpOk ((s.storeCell a w).hold op))) : HostMove s t
  /-- the word at the head of the port spells no command (R113 (a)) -/
  | illegal (cw : CmdWord) (rest : List CmdWord) (why : Reject) (hop : s.hostOp = .idle) (hio : s.io = .ready)
      (hport : s.port = cw :: rest) (hdec : decode cw = .reject why) : HostMove s (s.popPort.complete .illegal)
  /-- the word at the head of the port spells a command -/
  | command (cw : CmdWord) (rest : List CmdWord) (i : Instr) (t : State) (hop : s.hostOp = .idle)
      (hport : s.port = cw :: rest) (hdec : decode cw = .ok i) (hadm : Admitted i s.popPort)
      (hmove : CommandMove s.popPort i t) : HostMove s t

/-- HOST clears the framebuffer only with a held plane count or a word to take (R211). -/
theorem not_clearsAll_of_hostOp {s : State} (h : s.hostOp ≠ .idle) (h' : ∀ n, s.hostOp ≠ .setPwmBits n) :
    ¬ ClearsAll s := by
  rintro ⟨-, ⟨n, hn⟩ | ⟨hidle, -⟩⟩
  · exact h' n hn
  · exact h hidle

theorem hostMove_of_hostIssue {s t : State} (hop : s.hostOp = .idle) (h : hostIssue s = .next t) : HostMove s t := by
  cases hport : s.port with
  | nil =>
    rw [hostIssue, hport] at h
    cases h
    refine .wait (by simp [cellInHand, hop]) ?_
    simp [ClearsAll, hop, hport]
  | cons cw rest =>
    rw [hostIssue_cons hport, issueWord] at h
    split at h
    · next i hdec => exact .command cw rest i t hop hport hdec (exec_eq_next h) (commandMove_of_exec h)
    · next why hdec =>
      split at h <;> cases h
      have hio : s.io = .ready := by cases hs : s.io <;> simp_all
      exact .illegal cw rest why hop hio hport hdec

/-- A pixel's cell in one of the first p planes is a cell of these planes (R61, R62). -/
theorem pixelCell_lt_planes {c : Config} {k p x y : Nat} (hk : k < p) (hx : x < c.cols) (hy : y < 2 * c.doubleRows) :
    pixelCell c k x y < p * planeCells c := addr_lt_planes hk (mod_lt_rows hy) hx

/-- The micro-step of a `SetPixel` in progress writes the plane's cell (R152). -/
theorem hostMove_of_microSetPixel {s t : State} {k p x y : Nat} {r g b : Byte} (hop : s.hostOp = .setPixel k p x y r g b)
    (h : microSetPixel k p x y r g b s = .next t) : HostMove s t := by
  obtain ⟨-, hnext⟩ := accessCell_eq_next.1 h
  cases hnext
  have hok : HostOpOk s ↔ p = s.pwmBits.toNat ∧ k < p ∧ x < s.cfg.cols ∧ y < 2 * s.cfg.doubleRows := by
    simp [HostOpOk, hop]
  refine .store (pixelCell s.cfg k x y) _ _ (by simp [cellInHand, hop]) (fun ho => ?_)
    (fun hr => setTriplet_and_not_rgbMask hr y p k r g b) ?_
  · obtain ⟨rfl, hk, hx, hy⟩ := hok.1 ho
    exact pixelCell_lt_planes hk hx hy
  · rcases resumeSetPixel_cases (s.storeCell _ _) (k + 1) p x y r g b with ⟨hlt, hs⟩ | ⟨-, hs⟩
    · refine .inr ⟨_, hs, fun ho => ?_⟩
      obtain ⟨hp, -, hx, hy⟩ := hok.1 ho
      exact ⟨hp, hlt, hx, hy⟩
    · exact .inl hs

/-- The micro-step of a `Fill` in progress writes its cell whole (R156). -/
theorem hostMove_of_microFill {s t : State} {n p : Nat} {r g b : Byte} (hop : s.hostOp = .fill n p r g b)
    (h : microFill n p r g b s = .next t) : HostMove s t := by
  obtain ⟨-, hnext⟩ := accessCell_eq_next.1 h
  cases hnext
  have hok : HostOpOk s ↔ p = s.pwmBits.toNat ∧ n < p * planeCells s.cfg := by simp [HostOpOk, hop]
  refine .store n (fillWord s.cfg p (n / planeCells s.cfg) r g b) _ (by simp [cellInHand, hop]) (fun ho => ?_)
    (fun _ => fillWord_and_not_rgbMask ..) ?_
  · obtain ⟨rfl, hn⟩ := hok.1 ho
    exact hn
  · rcases resumeFill_cases (s.storeCell n _) (n + 1) p r g b with ⟨hlt, hs⟩ | ⟨-, hs⟩
    · exact .inr ⟨_, hs, fun ho => ⟨(hok.1 ho).1, hlt⟩⟩
    · exact .inl hs

/-- The micro-step of a `Clear` in progress makes its cell 0 (R157). -/
theorem hostMove_of_microClear {s t : State} {n p : Nat} (hop : s.hostOp = .clear n p)
    (h : microClear n p s = .next t) : HostMove s t := by
  obtain ⟨-, hnext⟩ := accessCell_eq_next.1 h
  cases hnext
  have hok : HostOpOk s ↔ p = s.pwmBits.toNat ∧ n < p * planeCells s.cfg := by simp [HostOpOk, hop]
  refine .store n _ _ (by simp [cellInHand, hop]) (fun ho => ?_) (fun _ => BitVec.zero_and) ?_
  · obtain ⟨rfl, hn⟩ := hok.1 ho
    exact hn
  · rcases resumeClear_cases (s.storeCell n _) (n + 1) p with ⟨hlt, hs⟩ | ⟨-, hs⟩
    · exact .inr ⟨_, hs, fun ho => ⟨(hok.1 ho).1, hlt⟩⟩
    · exact .inl hs

theorem hostMove_of_hostStep {s t : State} (h : hostStep s = .next t) : HostMove s t := by
  unfold hostStep at h
  cases hop : s.hostOp <;> simp only [hop] at h
  case idle => exact hostMove_of_hostIssue hop h
  case setPixel => exact hostMove_of_microSetPixel hop h
  case fill => exact hostMove_of_microFill hop h
  case clear => exact hostMove_of_microClear hop h
  case setPwmBits n =>
    cases h
    rcases applyPwmBits_cases n s with ⟨hin, hs⟩ | ⟨hout, hs⟩ <;> rw [hs]
    · have hsame : s.hold (.setPwmBits n) = s := by rw [State.hold, ← hop]
      rw [hsame]
      exact .wait (by simp [cellInHand, hop]) (by simp [ClearsAll, hin])
    · exact .resize n hop hout
  case waitFrame =>
    split at h <;> cases h
    · exact .wait (by simp [cellInHand, hop]) (not_clearsAll_of_hostOp (by simp [hop]) (by simp [hop]))
    · next hreq => exact .waited (.inl ⟨hop, by simpa using hreq⟩)
  case waitJoin =>
    split at h <;> cases h
    · next hjoined => exact .waited (.inr ⟨hop, hjoined⟩)
    · exact .wait (by simp [cellInHand, hop]) (not_clearsAll_of_hostOp (by simp [hop]) (by simp [hop]))

/-! ### A turn of SCAN -/

/-- The colour bits are inside `RGB_MASK` and the rest of the word is the control part (R184 to R190). -/
def OutputForm (s : State) (w : Word) : Prop :=
  ∃ cur clk stb oe, w = cur ||| s.ctl clk stb oe ∧ cur &&& ~~~ s.cfg.layout.rgbMask = 0#32

/-- Where a position of a frame can move: inside the ranges of R30, with its plane count and without a request of its own. -/
structure PosMove (s : State) (q : Pos) : Prop where
  ok : PosOk (s.setPos q)
  keepsRequest : q.frameReq = true → s.pos.frameReq = true
  request : q.inFrame = true → q.frameReq = s.pos.frameReq

/-- Everything a turn of SCAN that goes on can do. -/
inductive ScanMove (s : State) : State → Prop where
  /-- SCAN has no step -/
  | rest (h : s.scanReady = false) : ScanMove s s
  /-- the task confirms its termination (R249) -/
  | confirm (hio : s.io = .ready) (hout : s.pos.inFrame = false) (htask : s.task = .stopping) : ScanMove s (s.setTask .joined)
  /-- a frame starts (R183) -/
  | start (hio : s.io = .ready) (hout : s.pos.inFrame = false) (hwhy : s.task = .running ∨ s.pos.frameReq = true) :
      ScanMove s (s.setPos (s.pos.begin s.pwmBits))
  /-- an output word is written -/
  | write (w : Word) (q : Pos) (hio : s.io = .ready) (hin : s.pos.inFrame = true) (hword : PosOk s → OutputForm s w)
      (hpos : PosOk s → PosMove s q) : ScanMove s ((s.writeOutput w).setPos q)
  /-- the dwell is loaded -/
  | dwell (d : Nat) (q : Pos) (hio : s.io = .ready) (hin : s.pos.inFrame = true) (hpos : PosOk s → PosMove s q) :
      ScanMove s ((s.loadDwell d).setPos q)

/-- The colour bits latched from a cell are inside `RGB_MASK` (R184). -/
theorem and_rgbMask_and_not (L : Layout) (w : Word) : w &&& L.rgbMask &&& ~~~ L.rgbMask = 0#32 := by
  rw [BitVec.and_assoc, BitVec.and_not_self]
  exact BitVec.and_zero

theorem posMove_latch {s : State} (h : PosOk s) (w : Word) : PosMove s (s.pos.latch (w &&& s.cfg.layout.rgbMask)) :=
  ⟨⟨h.row, h.plane, h.column, and_rgbMask_and_not _ w, h.sampled, h.frame⟩, id, fun _ => rfl⟩

theorem posMove_toPhase {s : State} (h : PosOk s) (ph : Phase) : PosMove s (s.pos.toPhase ph) :=
  ⟨⟨h.row, h.plane, h.column, h.colours, h.sampled, h.frame⟩, id, fun _ => rfl⟩

theorem posMove_afterClock {s : State} (h : PosOk s) : PosMove s (s.pos.afterClock s.cfg.cols) := by
  unfold Pos.afterClock
  split
  · next hc => exact ⟨⟨h.row, h.plane, hc, h.colours, h.sampled, h.frame⟩, id, fun _ => rfl⟩
  · exact posMove_toPhase h .strobeHi

/-- The position after a pass is in range: the next plane is below the sampled count, the next row below R (R190). -/
theorem posMove_afterPass {s : State} (h : PosOk s) : PosMove s (s.pos.afterPass s.cfg.doubleRows) := by
  have hcol : 0 < s.cfg.cols := Nat.zero_lt_of_lt h.column
  have hrow : 0 < s.cfg.doubleRows := Nat.zero_lt_of_lt h.row
  unfold Pos.afterPass
  split
  · next hk =>
    have hk11 : s.pos.k + 1 < 11 := Nat.lt_of_lt_of_le hk h.sampled.2
    exact ⟨⟨h.row, hk11, hcol, h.colours, h.sampled, fun hin => ⟨hk, (h.frame hin).2⟩⟩, id, fun _ => rfl⟩
  · split
    · next hr =>
      exact ⟨⟨hr, Nat.zero_lt_succ 10, hcol, h.colours, h.sampled, fun hin => ⟨h.sampled.1, (h.frame hin).2⟩⟩, id,
        fun _ => rfl⟩
    · exact ⟨⟨hrow, Nat.zero_lt_succ 10, hcol, h.colours, h.sampled, nofun⟩, nofun, nofun⟩

/-- A control word alone is an output word (R186 to R190). -/
theorem outputForm_ctl (s : State) (clk stb oe : Bool) : OutputForm s (s.ctl clk stb oe) :=
  ⟨0#32, clk, stb, oe, (BitVec.zero_or).symm, BitVec.zero_and⟩

/-- The step of a frame in progress is one of the two output events (R191). -/
theorem scanMove_of_scanInFrame {s t : State} (hio : s.io = .ready) (hin : s.pos.inFrame = true)
    (h : scanInFrame s = .next t) : ScanMove s t := by
  unfold scanInFrame at h
  cases hphase : s.pos.phase <;> rw [hphase] at h
  case shiftLo =>
    obtain ⟨-, hnext⟩ := accessCell_eq_next.1 h
    cases hnext
    exact .write _ _ hio hin (fun _ => ⟨_, _, _, _, rfl, and_rgbMask_and_not _ _⟩) fun hp => posMove_latch hp _
  case shiftHi =>
    cases h
    exact .write _ _ hio hin (fun hp => ⟨_, _, _, _, rfl, hp.colours⟩) posMove_afterClock
  case strobeHi | strobeLo | oeAssert =>
    cases h
    exact .write _ _ hio hin (fun _ => outputForm_ctl ..) fun hp => posMove_toPhase hp _
  case dwell =>
    cases h
    exact .dwell _ _ hio hin fun hp => posMove_toPhase hp _
  case oeRelease =>
    cases h
    exact .write _ _ hio hin (fun _ => outputForm_ctl ..) posMove_afterPass

theorem io_ready_of_scanReady {s : State} (h : s.scanReady = true) : s.io = .ready := by
  simp only [State.scanReady, Bool.and_eq_true, decide_eq_true_eq] at h
  exact h.1

/-- A frame starts for a running task or a request (R183). -/
theorem running_or_request_of_frameStartEnabled {s : State} (h : s.frameStartEnabled = true) :
    s.task = .running ∨ s.pos.frameReq = true := by
  simp only [State.frameStartEnabled, State.live, Bool.and_eq_true, Bool.or_eq_true, decide_eq_true_eq] at h
  exact h.1.2

theorem scanMove_of_scanStep {s t : State} (h : scanStep s = .next t) : ScanMove s t := by
  rcases scanStep_cases s with ⟨hr, hs⟩ | ⟨hr, hin, hs⟩ | ⟨hr, hout, htask, hs⟩ | ⟨hr, hout, -, hen, hs⟩ <;>
    rw [hs] at h
  · cases h; exact .rest hr
  · exact scanMove_of_scanInFrame (io_ready_of_scanReady hr) hin h
  · cases h; exact .confirm (io_ready_of_scanReady hr) hout htask
  · cases h; exact .start (io_ready_of_scanReady hr) hout (running_or_request_of_frameStartEnabled hen)

/-- A step of the machine that goes on is a move of one agent (R11, R69). -/
theorem move_of_step {s t : State} (h : step s = .next t) : HostMove s.takeTurn t ∨ ScanMove s.takeTurn t := by
  rcases step_cases s with hs | hs <;> rw [hs] at h
  · exact .inl (hostMove_of_hostStep h)
  · exact .inr (scanMove_of_scanStep h)

/-! ### No fault -/

/-- Taking a command faults nowhere: it has its next state where admitted and is refused elsewhere (R281). -/
theorem exec_ne_fault (i : Instr) (s : State) (why : Fault) : exec i s ≠ .fault why := by
  by_cases hadm : Admitted i s
  · obtain ⟨t, ht⟩ := exec_of_admitted_next hadm
    simp [ht]
  · obtain ⟨r, hr⟩ := exec_of_not_admitted hadm
    simp [hr]

theorem hostIssue_ne_fault (s : State) (why : Fault) : hostIssue s ≠ .fault why := by
  cases hport : s.port with
  | nil => simp [hostIssue, hport]
  | cons cw rest =>
    rw [hostIssue_cons hport, issueWord]
    split
    · exact exec_ne_fault _ _ why
    · split <;> simp

/-- The micro-steps of a command the invariant allows address cells of the active planes (R65). -/
theorem hostStep_ne_fault {s : State} (h : BlockInv s) (why : Fault) : hostStep s ≠ .fault why := by
  have hactive {a : Nat} (ha : a < s.pwmBits.toNat * planeCells s.cfg) : a < s.cfg.fbWords := lt_fbWords h.planes.2 ha
  have hok := h.hostOp
  unfold hostStep
  cases hop : s.hostOp <;> simp only [HostOpOk, hop] at hok ⊢
  case idle => exact hostIssue_ne_fault s why
  case setPixel =>
    obtain ⟨rfl, hk, hx, hy⟩ := hok
    rw [microSetPixel, accessCell_of_lt (hactive (pixelCell_lt_planes hk hx hy))]
    simp
  case fill =>
    obtain ⟨rfl, hn⟩ := hok
    rw [microFill, accessCell_of_lt (hactive hn)]
    simp
  case clear =>
    obtain ⟨rfl, hn⟩ := hok
    rw [microClear, accessCell_of_lt (hactive hn)]
    simp
  case setPwmBits => simp
  case waitFrame | waitJoin => split <;> simp

/-- The one framebuffer read of SCAN is at a legal position (R65, R182). -/
theorem scanInFrame_next {s : State} (h : PosOk s) : ∃ t, scanInFrame s = .next t := by
  unfold scanInFrame
  cases s.pos.phase
  case shiftLo =>
    have hcell : s.cfg.addr s.pos.k s.pos.r s.pos.c < s.cfg.fbWords :=
      lt_fbWords (Nat.le_refl 11) (addr_lt_planes h.plane h.row h.column)
    exact ⟨_, accessCell_of_lt hcell _⟩
  all_goals exact ⟨_, rfl⟩

/-- SCAN has a next state wherever its position is legal (R65, R191). -/
theorem scanStep_next {s : State} (h : PosOk s) : ∃ t, scanStep s = .next t := by
  rcases scanStep_cases s with ⟨-, hs⟩ | ⟨-, -, hs⟩ | ⟨-, -, -, hs⟩ | ⟨-, -, -, -, hs⟩ <;> rw [hs]
  · exact ⟨_, rfl⟩
  · exact scanInFrame_next h
  · exact ⟨_, rfl⟩
  · exact ⟨_, rfl⟩

/-- Settles O51: every access of either agent is below `FB_WORDS`. -/
theorem noAccessFallsOutsideTheFramebuffer : Obligations.NoAccessFallsOutsideTheFramebuffer := by
  intro s why hinv
  rcases step_cases s with hs | hs <;> rw [hs]
  · exact hostStep_ne_fault hinv.takeTurn why
  · obtain ⟨t, ht⟩ := scanStep_next hinv.takeTurn.pos
    simp [ht]

end Machine
end Sys2Proof
end

section
/-! PROOFS. The invariant of the block: construction establishes it and every step keeps it (`10_state.md` sections 2 to 4
and 6, `20_memory.md` section 1, `70_reset_and_hazards.md` section 1). -/

namespace Sys2Proof
namespace Machine

/-! ### Construction -/

/-- The state after reset meets the invariant for the parameters of every block (R40). -/
theorem blockInv_initial {c : Config} (h : c.wf = true) : BlockInv (State.initial c) where
  params := h
  canonical := Memory.wf_nil
  triplets _ := BitVec.zero_and
  inactive _ _ := rfl
  planes := by
    obtain ⟨-, -, -, -, -, -, -, -, hp1, hp11, -⟩ := Config.wf_iff h
    exact ⟨hp1, hp11⟩
  level := by
    obtain ⟨-, -, -, -, -, -, -, -, -, -, hb1, hb10⟩ := Config.wf_iff h
    exact ⟨hb1, hb10⟩
  pos := ⟨(Config.cols_pos h).2, Nat.zero_lt_succ 10, (Config.cols_pos h).1, BitVec.zero_and,
    by simp [State.initial, Pos.initial], nofun⟩
  hostOp := trivial
  control := ⟨nofun, nofun, nofun⟩

/-- A construction that builds a block has checked its parameters and gives the reset state (R291). -/
theorem wf_and_initial_of_built {c : Config} {s : State} (h : construct c = .built s) :
    c.wf = true ∧ s = State.initial c := by
  unfold construct at h
  cases hwf : c.wf <;> cases hfold : c.foldOk <;> cases hio : c.ioInitOk <;> simp [hwf, hfold, hio] at h
  exact ⟨rfl, h.symm⟩

/-- Settles O49: a construction that builds a block gives the reset state of checked parameters. -/
theorem constructionEstablishesTheInvariant : Obligations.ConstructionEstablishesTheInvariant := by
  refine ⟨fun c s h => ?_, blockInv_initial (by decide)⟩
  obtain ⟨hwf, rfl⟩ := wf_and_initial_of_built h
  exact blockInv_initial hwf

/-! ### Updates that keep the invariant -/

theorem BlockInv.readInput {s : State} (h : BlockInv s) : BlockInv s.readInput := by
  obtain ⟨hparams, hcanon, htrip, hinact, hplanes, hlevel, hpos, hop, hctl⟩ := h
  exact ⟨hparams, hcanon, htrip, hinact, hplanes, hlevel,
    ⟨hpos.row, hpos.plane, hpos.column, hpos.colours, hpos.sampled, hpos.frame⟩, hop,
    ⟨hctl.request, hctl.stopping, hctl.frame⟩⟩

/-- The clearing step of R211 leaves a dark framebuffer of the new plane count and an idle port. -/
theorem BlockInv.resize_complete {s : State} (h : BlockInv s) (hreq : s.pos.frameReq = false) (hstop : s.task ≠ .stopping)
    (hout : s.pos.inFrame = false) {n : BitVec 4} (hn : 1 ≤ n.toNat ∧ n.toNat ≤ 11) (r : Result) :
    BlockInv ((s.resize n).complete r) where
  params := h.params
  canonical := Memory.wf_nil
  triplets _ := BitVec.zero_and
  inactive _ _ := rfl
  planes := hn
  level := h.level
  pos := ⟨h.pos.row, h.pos.plane, h.pos.column, h.pos.colours, h.pos.sampled, by simp [hout]⟩
  hostOp := trivial
  control := ⟨by simp [hreq], fun hs => absurd hs hstop, by simp [hout]⟩

/-- The registers of the control state written together; the conditions on who waits for whom are all there is to check. -/
theorem BlockInv.setControl {s : State} (h : BlockInv s) {task : TaskState} {op : HostOp} {res : List Result} {req : Bool}
    (hop : HostOpOk { s with task := task, hostOp := op, results := res, pos := { s.pos with frameReq := req } })
    (hctl : ControlOk { s with task := task, hostOp := op, results := res, pos := { s.pos with frameReq := req } }) :
    BlockInv { s with task := task, hostOp := op, results := res, pos := { s.pos with frameReq := req } } where
  params := h.params
  canonical := h.canonical
  triplets := h.triplets
  inactive := h.inactive
  planes := h.planes
  level := h.level
  pos := ⟨h.pos.row, h.pos.plane, h.pos.column, h.pos.colours, h.pos.sampled, h.pos.frame⟩
  hostOp := hop
  control := hctl

/-- A requested frame has its waiting host (R192). -/
theorem BlockInv.request {s : State} (h : BlockInv s) (htask : s.task = .created ∨ s.task = .joined)
    (hout : s.pos.inFrame = false) : BlockInv ((s.setPos s.pos.request).hold .waitFrame) :=
  h.setControl (req := true) htask
    ⟨fun _ => rfl, fun hs => by rcases htask with ht | ht <;> simp [ht] at hs, fun hin => absurd (hin : s.pos.inFrame = true) (by simp [hout])⟩

/-- A task that starts leaves the port idle (R246). -/
theorem BlockInv.start {s : State} (h : BlockInv s) (hreq : s.pos.frameReq = false) (r : Result) :
    BlockInv ((s.setTask .running).complete r) :=
  h.setControl (req := s.pos.frameReq) trivial ⟨by simp [hreq], nofun, fun _ => .inl rfl⟩

/-- A stopping task has its waiting host (R248). -/
theorem BlockInv.stop {s : State} (h : BlockInv s) (hreq : s.pos.frameReq = false) :
    BlockInv ((s.setTask .stopping).hold .waitJoin) :=
  h.setControl (req := s.pos.frameReq) (.inl rfl) ⟨by simp [hreq], fun _ => rfl, fun _ => .inr (.inl rfl)⟩

/-- A confirmed termination keeps the host waiting for it (R249). -/
theorem BlockInv.confirm {s : State} (h : BlockInv s) (htask : s.task = .stopping) (hout : s.pos.inFrame = false) :
    BlockInv (s.setTask .joined) := by
  have hwait := h.control.stopping htask
  exact h.setControl (op := s.hostOp) (req := s.pos.frameReq) (by simp [HostOpOk, hwait])
    ⟨h.control.request, nofun, by simp [hout]⟩

/-- A frame starts with the current plane count (R183). -/
theorem BlockInv.frameStart {s : State} (h : BlockInv s) (hwhy : s.task = .running ∨ s.pos.frameReq = true) :
    BlockInv (s.setPos (s.pos.begin s.pwmBits)) := by
  obtain ⟨hcol, hrow⟩ := Config.cols_pos h.params
  exact h.setPos ⟨hrow, Nat.zero_lt_succ 10, hcol, h.pos.colours, h.planes, fun _ => ⟨h.planes.1, rfl⟩⟩ id
    fun _ => hwhy.imp_right .inr

/-- A step of a frame in progress moves the position as `PosMove` says (R184 to R190). -/
theorem BlockInv.movePos {s : State} (h : BlockInv s) (hin : s.pos.inFrame = true) {q : Pos} (hq : PosMove s q) :
    BlockInv (s.setPos q) :=
  h.setPos hq.ok hq.keepsRequest fun hin' => hq.request hin' ▸ h.control.frame hin

/-! ### The levels of the brightness -/

theorem nextBrighter_range {br : BitVec 4} (h : 1 ≤ br.toNat ∧ br.toNat ≤ 10) :
    1 ≤ (nextBrighter br).toNat ∧ (nextBrighter br).toNat ≤ 10 := by
  revert h; revert br; decide

theorem nextDarker_range {br : BitVec 4} (h : 1 ≤ br.toNat ∧ br.toNat ≤ 10) :
    1 ≤ (nextDarker br).toNat ∧ (nextDarker br).toNat ≤ 10 := by
  revert h; revert br; decide

/-! ### The two agents -/

theorem blockInv_of_commandMove {i : Instr} {s t : State} (h : BlockInv s) (hidle : s.hostOp = .idle)
    (hmove : CommandMove s i t) : BlockInv t := by
  obtain ⟨hreq, hstop⟩ := h.quiet (by simp [hidle]) (by simp [hidle])
  cases hmove with
  | complete _ r => exact h.complete hreq hstop r
  | hold _ op hok => exact h.hold hreq hstop hok
  | resize n p _ hp hout => exact h.resize_complete hreq hstop hout hp .ok
  | brighter => exact (h.setBrightness (nextBrighter_range h.level)).complete hreq hstop .ok
  | darker => exact (h.setBrightness (nextDarker_range h.level)).complete hreq hstop .ok
  | readInput r => exact h.readInput.complete hreq hstop r
  | request htask hout => exact h.request htask hout
  | start => exact h.start hreq .ok
  | stop => exact h.stop hreq

theorem blockInv_of_hostMove {s t : State} (h : BlockInv s) (hmove : HostMove s t) : BlockInv t := by
  have hok := h.hostOp
  cases hmove with
  | wait => exact h
  | waited hdone =>
    rcases hdone with ⟨hop, hreq⟩ | ⟨hop, htask⟩
    · have htask : s.task = .created ∨ s.task = .joined := by simpa [HostOpOk, hop] using hok
      exact h.complete hreq (by rcases htask with ht | ht <;> simp [ht]) .ok
    · have hreq : s.pos.frameReq = false := by
        by_contra hc
        simpa [hop] using h.control.request (by simpa using hc)
      exact h.complete hreq (by simp [htask]) .ok
  | resize n hop hout =>
    obtain ⟨hreq, hstop⟩ := h.quiet (by simp [hop]) (by simp [hop])
    have hn : 1 ≤ n.toNat ∧ n.toNat ≤ 11 := by simpa [HostOpOk, hop] using hok
    exact h.resize_complete hreq hstop hout hn .ok
  | store a w _ hcell hactive hword hgo =>
    obtain ⟨hreq, hstop⟩ := h.quiet (by rintro hop; simp [cellInHand, hop] at hcell)
      (by rintro hop; simp [cellInHand, hop] at hcell)
    have hstored := h.storeCell (hactive hok) (hword (h.triplets a))
    rcases hgo with rfl | ⟨op, rfl, hop⟩
    · exact hstored.complete hreq hstop .ok
    · exact hstored.hold hreq hstop (hop hok)
  | illegal cw rest why hop =>
    obtain ⟨hreq, hstop⟩ := h.quiet (by simp [hop]) (by simp [hop])
    exact h.popPort.complete hreq hstop .illegal
  | command cw rest i _ hop _ _ _ hmove => exact blockInv_of_commandMove h.popPort hop hmove

theorem blockInv_of_scanMove {s t : State} (h : BlockInv s) (hmove : ScanMove s t) : BlockInv t := by
  cases hmove with
  | rest => exact h
  | confirm _ hout htask => exact h.confirm htask hout
  | start _ _ hwhy => exact h.frameStart hwhy
  | write w q _ hin _ hpos => exact (h.movePos hin (hpos h.pos)).writeOutput w
  | dwell d q _ hin hpos => exact (h.movePos hin (hpos h.pos)).loadDwell d

/-- Settles O50: each move of either agent is an update that keeps the invariant. -/
theorem stepKeepsTheInvariant : Obligations.StepKeepsTheInvariant := by
  intro s t hinv hstep
  rcases move_of_step hstep with hmove | hmove
  · exact blockInv_of_hostMove hinv.takeTurn hmove
  · exact blockInv_of_scanMove hinv.takeTurn hmove

end Machine
end Sys2Proof
end

section
/-! PROOFS. The bit layout: what an encoded record, a set field and an output word hold, bit by bit
(`40_bit_layout.md`, R131 to R134; `30_encoding.md` sections 1 and 2, R95 to R99). -/

namespace Sys2Proof
namespace Machine

/-! ### Reading a field bit by bit -/

/-- A bit of a field of a well-formed layout is a bit of a 32-bit word (R91). -/
theorem lt_32_of_mem_bits {L : Layout} (hL : L.wf = true) {f : WordField} {i : Nat} (hi : i ∈ L.bits f) : i < 32 :=
  Nat.lt_of_lt_of_le (Layout.mem_bits.1 hi).2 (Layout.wf_bound hL f)

/-- The bits of a field determine what is read of it (R92). -/
theorem getField_eq_of_bits {L : Layout} {w : Word} {f : WordField} {n : Nat} (hn : n < 2 ^ f.width)
    (h : ∀ i ∈ L.bits f, w.getLsbD i = n.testBit (i - L.pos f)) : L.getField w f = n := by
  apply Nat.eq_of_testBit_eq
  intro j
  rw [L.getField_testBit]
  by_cases hj : j < f.width
  · rw [h _ (Layout.mem_bits.2 ⟨Nat.le_add_right _ _, Nat.add_lt_add_left hj _⟩), Nat.add_sub_cancel_left]
    simp [hj]
  · have hhigh : n.testBit j = false :=
      Nat.testBit_lt_two_pow (Nat.lt_of_lt_of_le hn (Nat.pow_le_pow_right (by decide) (Nat.le_of_not_lt hj)))
    simp [hj, hhigh]

/-- Two words with the same bits in a field read alike there (R92). -/
theorem getField_congr {L : Layout} {w w' : Word} {f : WordField} (h : ∀ i ∈ L.bits f, w.getLsbD i = w'.getLsbD i) :
    L.getField w f = L.getField w' f := by
  refine getField_eq_of_bits (L.getField_lt w' f) fun i hi => ?_
  obtain ⟨hlo, hhi⟩ := Layout.mem_bits.1 hi
  rw [h i hi, L.getField_testBit, Nat.add_sub_cancel' hlo, decide_eq_true (by omega), Bool.true_and]

/-- A value that fits its field is not truncated (R96). -/
theorem truncate_natCast {f : WordField} {n : Nat} (h : n < 2 ^ f.width) : f.truncate n = n := by
  rw [WordField.truncate, ← Int.natCast_mod, Int.toNat_natCast, Nat.mod_eq_of_lt h]

/-! ### Encoding -/

/-- In a field of a well-formed layout an encoded record has the bits of the field's truncated value (R131). -/
theorem getLsbD_encodeSignals_of_mem {L : Layout} (hL : L.wf = true) (s : Signals) {f : WordField} {i : Nat}
    (hi : i ∈ L.bits f) : (L.encodeSignals s).getLsbD i = (f.truncate (s.get f)).testBit (i - L.pos f) := by
  have hplace (g : WordField) : (L.place g (s.get g)).getLsbD i =
      (decide (g = f) && (f.truncate (s.get f)).testBit (i - L.pos f)) := by
    rw [L.getLsbD_place]
    by_cases hg : g = f
    · subst hg
      simp [hi, lt_32_of_mem_bits hL hi]
    · have hout : i ∉ L.bits g := fun hig => Layout.wf_disjoint hL hg hig hi
      simp [hg, hout]
  rw [L.getLsbD_encodeSignals, Bool.eq_iff_iff]
  simp only [hplace, List.any_eq_true, Bool.and_eq_true, decide_eq_true_eq]
  exact ⟨fun ⟨_, _, _, ht⟩ => ht, fun ht => ⟨f, f.mem_all, rfl, ht⟩⟩

/-- Outside every field an encoded record has no bit (R131). -/
theorem getLsbD_encodeSignals_of_not_mem {L : Layout} (s : Signals) {i : Nat} (hi : ∀ f, i ∉ L.bits f) :
    (L.encodeSignals s).getLsbD i = false := by
  simp [L.getLsbD_encodeSignals, L.getLsbD_place, hi]

/-- The used bits are the bits of the fields (R93). -/
theorem getLsbD_usedMask_iff {L : Layout} (hL : L.wf = true) {i : Nat} :
    L.usedMask.getLsbD i = true ↔ ∃ f, i ∈ L.bits f := by
  simp only [L.getLsbD_usedMask, List.any_eq_true, L.getLsbD_mask, decide_eq_true_eq]
  exact ⟨fun ⟨f, _, _, hf⟩ => ⟨f, hf⟩, fun ⟨f, hf⟩ => ⟨f, f.mem_all, lt_32_of_mem_bits hL hf, hf⟩⟩

theorem getField_encodeSignals {L : Layout} (hL : L.wf = true) (s : Signals) (f : WordField) :
    L.getField (L.encodeSignals s) f = f.truncate (s.get f) :=
  getField_eq_of_bits (f.truncate_lt _) fun _ hi => getLsbD_encodeSignals_of_mem hL s hi

/-- Settles O15: in its field a record has its truncated value, outside every field nothing. -/
theorem encodedFieldsAreTruncatedSignals : Obligations.EncodedFieldsAreTruncatedSignals := by
  intro L s hL
  refine ⟨fun f => by rw [getField_encodeSignals hL, f.truncate_cast], ?_⟩
  apply BitVec.eq_of_getLsbD_eq
  intro i hi
  by_cases hused : ∃ f, i ∈ L.bits f
  · simp [hi, (getLsbD_usedMask_iff hL).2 hused]
  · simp [getLsbD_encodeSignals_of_not_mem s (not_exists.1 hused)]

/-- Settles O16: encoding puts back the bits decoding read, field by field. -/
theorem encodeOfDecodeKeepsTheUsedBits : Obligations.EncodeOfDecodeKeepsTheUsedBits := by
  intro L w s hL
  refine ⟨L.decodeSignals_get w, ?_, fun f => by
    rw [L.decodeSignals_get, getField_encodeSignals hL, f.truncate_cast]⟩
  apply BitVec.eq_of_getLsbD_eq
  intro i _
  rw [BitVec.getLsbD_and]
  by_cases hused : ∃ f, i ∈ L.bits f
  · rw [(getLsbD_usedMask_iff hL).2 hused, Bool.and_true]
    obtain ⟨f, hf⟩ := hused
    obtain ⟨hlo, hhi⟩ := Layout.mem_bits.1 hf
    rw [getLsbD_encodeSignals_of_mem hL _ hf, L.decodeSignals_get, truncate_natCast (L.getField_lt w f),
      L.getField_testBit, Nat.add_sub_cancel' hlo, decide_eq_true (by omega), Bool.true_and]
  · have hnone : L.usedMask.getLsbD i = false := by simpa using fun h => hused ((getLsbD_usedMask_iff hL).1 h)
    rw [getLsbD_encodeSignals_of_not_mem _ (not_exists.1 hused), hnone, Bool.and_false]

/-! ### Setting one field -/

/-- Setting a field replaces its bits by the truncated value's and keeps the others (R134). -/
theorem getLsbD_setField (L : Layout) (w : Word) (f : WordField) (v : Int) {i : Nat} (hi : i < 32) :
    (L.setField w f v).getLsbD i =
      if i ∈ L.bits f then (f.truncate v).testBit (i - L.pos f) else w.getLsbD i := by
  rw [Layout.setField, BitVec.getLsbD_or, BitVec.getLsbD_and, BitVec.getLsbD_not, L.getLsbD_place, L.getLsbD_mask]
  by_cases hf : i ∈ L.bits f <;> simp only [hi, hf] <;> simp

/-- Settles O17: the bits of the field become the truncated value's, and every other bit stays. -/
theorem setFieldChangesOnlyItsField : Obligations.SetFieldChangesOnlyItsField := by
  intro L w f v hL
  refine ⟨?_, fun f' hf' => getField_congr fun i hi => ?_, ?_⟩
  · rw [getField_eq_of_bits (f.truncate_lt v) fun i hi => ?_, f.truncate_cast]
    rw [getLsbD_setField L w f v (lt_32_of_mem_bits hL hi), if_pos hi]
  · rw [getLsbD_setField L w f v (lt_32_of_mem_bits hL hi), if_neg fun hif => Layout.wf_disjoint hL hf' hi hif]
  · apply BitVec.eq_of_getLsbD_eq
    intro i hi
    rw [BitVec.getLsbD_and, BitVec.getLsbD_and, BitVec.getLsbD_not, L.getLsbD_mask, getLsbD_setField L w f v hi]
    by_cases hf : i ∈ L.bits f <;> simp only [hi, hf] <;> simp

/-! ### The output words -/

/-- A one-bit field's place holds its bit (R96). -/
theorem place_bool (L : Layout) {f : WordField} (hf : f.width = 1) (b : Bool) :
    L.place f b.toNat = bitWord b <<< L.pos f := by
  have ht : f.truncate b.toNat = b.toNat := truncate_natCast (by rw [hf]; exact b.toNat_lt)
  rw [Layout.place, ht]
  cases b <;> rfl

theorem place_zero (L : Layout) (f : WordField) : L.place f 0 = 0#32 := by
  simp [Layout.place, WordField.truncate]

theorem t1_eq_place (L : Layout) (r g b : Bool) :
    L.t1 r g b = L.place .r1 r.toNat ||| L.place .g1 g.toNat ||| L.place .b1 b.toNat := by
  rw [place_bool L rfl, place_bool L rfl, place_bool L rfl, Layout.t1]

theorem t2_eq_place (L : Layout) (r g b : Bool) :
    L.t2 r g b = L.place .r2 r.toNat ||| L.place .g2 g.toNat ||| L.place .b2 b.toNat := by
  rw [place_bool L rfl, place_bool L rfl, place_bool L rfl, Layout.t2]

/-- The control part holds the row address truncated to 4 bits and its three bits (R99). -/
theorem ctl_eq_place (L : Layout) (rr : Nat) (clk stb oe : Bool) :
    L.ctl rr clk stb oe = L.place .row rr ||| L.place .clock clk.toNat ||| L.place .strobe stb.toNat |||
      L.place .outputEnable oe.toNat := by
  have hrow : L.place .row rr = BitVec.ofNat 32 (rr % 16) <<< L.pos .row := by
    rw [Layout.place, WordField.truncate, ← Int.natCast_mod, Int.toNat_natCast]
    rfl
  rw [place_bool L rfl, place_bool L rfl, place_bool L rfl, hrow, Layout.ctl]

/-- Settles O18: both sides place the same values, the encoding zeros in the six input fields besides. -/
theorem outputWordsAreEncodedSignals : Obligations.OutputWordsAreEncodedSignals := by
  intro L ru gu bu rl gl bl clk stb oe rr
  rw [t1_eq_place, t2_eq_place, ctl_eq_place]
  simp only [Layout.encodeSignals, WordField.all, List.foldr, Signals.get, place_zero, BitVec.zero_or, BitVec.or_zero]
  ac_rfl

end Machine
end Sys2Proof
end

section
/-! PROOFS. The host port and the turns: which command a step runs, where a command has a step, and that every interleaving
is a run (`60_exceptions.md` sections 2 and 5, `20_memory.md` section 4). -/

namespace Sys2Proof
namespace Machine

/-! ### Admission -/

theorem exec_start_refused {s : State} (h : PortFree s) (htask : s.task ≠ .created) :
    exec .start s = .refused .startNotAdmitted := by
  simp [exec, execStart, whenAdmitted, admission, h.1, h.2, htask]

theorem exec_stop_refused {s : State} (h : PortFree s) (htask : s.task ≠ .running) :
    exec .stop s = .refused .stopNotAdmitted := by
  simp [exec, execStop, whenAdmitted, admission, h.1, h.2, htask]

theorem exec_updateScreen_refused {s : State} (h : PortFree s)
    (hnot : ¬ ((s.task = .created ∨ s.task = .joined) ∧ s.pos.inFrame = false)) :
    exec .updateScreen s = .refused .updateScreenNotAdmitted := by
  simp [exec, execUpdateScreen, whenAdmitted, admission, h.1, h.2, hnot]

/-- A block without its binding refuses every command (R281, R292). -/
theorem exec_of_failed {s : State} (h : s.io = .failed) (i : Instr) : exec i s = .refused .notOperational := by
  have hgate (go : Outcome) : whenAdmitted i s go = .refused .notOperational := by simp [whenAdmitted, admission, h]
  cases i <;> exact hgate _

/-- Settles O9: the gate of R281 stands before every meaning, and behind it every meaning has a next state. -/
theorem commandsRunExactlyWhereAdmitted : Obligations.CommandsRunExactlyWhereAdmitted := by
  intro i s
  refine ⟨⟨fun ⟨t, ht⟩ => exec_eq_next ht, exec_of_admitted_next⟩, exec_of_not_admitted, fun h => exec_of_failed h i,
    exec_start_refused, exec_stop_refused, fun hport htask => exec_updateScreen_refused hport ?_⟩
  rcases htask with ht | ht <;> simp [ht]

/-! ### Whose turn it is -/

theorem step_of_host {s : State} (h : nextTurn s = .host) : step s = hostStep s.takeTurn := by rw [step, h]; rfl

theorem step_of_scan {s : State} (h : nextTurn s = .scan) : step s = scanStep s.takeTurn := by rw [step, h]; rfl

theorem nextTurn_of_turns {s : State} {a : Agent} {ts : List Agent} (h : s.env.turns = a :: ts) : nextTurn s = a := by
  simp [nextTurn, h]

/-- Settles O6: ENV's list comes first, then the one agent that can move. -/
theorem stepGivesTheTurnToOneAgent : Obligations.StepGivesTheTurnToOneAgent := by
  intro s
  refine ⟨step_of_scan, step_of_host, fun a rest => nextTurn_of_turns, fun hnil hh hs => ?_, fun hnil hh hs => ?_⟩ <;>
    simp [nextTurn, hnil, hh, hs]

/-- On HOST's turn an idle port takes the word at its head. -/
theorem step_of_host_idle {s : State} {cw : CmdWord} {rest : List CmdWord} (hturn : nextTurn s = .host)
    (hidle : s.hostOp = .idle) (hport : s.port = cw :: rest) :
    step s = issueWord cw { s with port := rest, env := s.env.afterTurn } := by
  have hpop : s.takeTurn.popPort = { s with port := rest, env := s.env.afterTurn } := by
    simp [State.popPort, State.takeTurn, hport]
  rw [step_of_host hturn, hostStep_idle (s := s.takeTurn) hidle, hostIssue_cons (s := s.takeTurn) hport, hpop]

theorem issueWord_of_ok {cw : CmdWord} {i : Instr} (h : decode cw = .ok i) (s : State) : issueWord cw s = exec i s := by
  simp [issueWord, h]

/-- Settles O5: an idle port with the turn takes its word, and a presented word stands at the head with the turn. -/
theorem stepRunsTheDecodedCommand : Obligations.StepRunsTheDecodedCommand := by
  refine ⟨fun s cw rest i hturn hidle hport hdec => ?_, fun s nbits w i hdec => ?_⟩
  · rw [step_of_host_idle hturn hidle hport, issueWord_of_ok hdec]
  · have hturn : nextTurn (s.withFetchWord nbits w) = .host := nextTurn_of_turns rfl
    rw [step_of_host_idle hturn rfl rfl, issueWord_of_ok hdec]
    rfl

/-- Settles O8: a rejected word is taken from the port and answered `ILLEGAL`. -/
theorem illegalWordChangesNothing : Obligations.IllegalWordChangesNothing := by
  intro s cw rest why hturn ⟨hio, hidle⟩ hport hdec
  rw [step_of_host_idle hturn hidle hport]
  simp [issueWord, hdec, hio, State.complete, hidle]

/-! ### Every order of turns -/

/-- A step changes the turns laid down only by using up its own, so it commutes with laying down others (R69). -/
def KeepsTurns (f : State → Outcome) : Prop :=
  ∀ (s : State) (ts : List Agent), f (s.withTurns ts) = mapNext (fun t => t.withTurns ts) (f s)

theorem withTurns_readInput (s : State) (ts : List Agent) : (s.withTurns ts).readInput = s.readInput.withTurns ts := by
  cases h : s.env.inputs <;>
    simp [State.readInput, State.withTurns, State.inputWord, Env.afterInput, h]

theorem whenAdmitted_withTurns {i : Instr} {s : State} {ts : List Agent} {go go' : Outcome}
    (h : go' = mapNext (fun t => t.withTurns ts) go) :
    whenAdmitted i (s.withTurns ts) go' = mapNext (fun t => t.withTurns ts) (whenAdmitted i s go) := by
  have hgate : admission i (s.withTurns ts) = admission i s := rfl
  rw [whenAdmitted, whenAdmitted, hgate, h]
  cases admission i s <;> rfl

theorem keepsTurns_exec (i : Instr) : KeepsTurns (exec i) := by
  intro s ts
  cases i <;> refine whenAdmitted_withTurns ?_
  case setPixel x y r g b =>
    rw [State.withTurns_cfg]
    cases locatePixel s.cfg x y with
    | none => rfl
    | some q => exact congrArg _ (resumeSetPixel_withTurns s ts ..)
  case fill => exact congrArg _ (resumeFill_withTurns s ts ..)
  case clear => exact congrArg _ (resumeClear_withTurns s ts ..)
  case setPwmBits n =>
    cases planeCount n with
    | none => rfl
    | some p => exact congrArg _ (applyPwmBits_withTurns s ts p)
  case getInput =>
    rw [withTurns_readInput]
    rfl
  case updateScreen | incBright | decBright | getWidth | getHeight | start | stop => rfl

theorem keepsTurns_hostIssue : KeepsTurns hostIssue := by
  intro s ts
  have hpop : (s.withTurns ts).popPort = s.popPort.withTurns ts := rfl
  cases hport : s.port with
  | nil => simp [hostIssue, hport, mapNext]
  | cons cw rest =>
    rw [hostIssue_cons hport, hostIssue_cons (s := s.withTurns ts) hport, hpop, issueWord, issueWord]
    cases decode cw with
    | ok i => exact keepsTurns_exec i s.popPort ts
    | reject why =>
      rw [State.withTurns_io]
      dsimp only
      split <;> rfl

theorem keepsTurns_hostStep : KeepsTurns hostStep := by
  intro s ts
  rw [hostStep, hostStep, State.withTurns_hostOp]
  cases s.hostOp
  case idle => exact keepsTurns_hostIssue s ts
  case setPixel => exact accessCell_withTurns fun w => congrArg _ (resumeSetPixel_withTurns (s.storeCell _ _) ts ..)
  case fill => exact accessCell_withTurns fun w => congrArg _ (resumeFill_withTurns (s.storeCell _ _) ts ..)
  case clear => exact accessCell_withTurns fun w => congrArg _ (resumeClear_withTurns (s.storeCell _ _) ts ..)
  case setPwmBits n => exact congrArg _ (applyPwmBits_withTurns s ts n)
  case waitFrame => rw [State.withTurns_pos]; dsimp only; split <;> rfl
  case waitJoin => rw [State.withTurns_task]; dsimp only; split <;> rfl

theorem keepsTurns_scanInFrame : KeepsTurns scanInFrame := by
  intro s ts
  rw [scanInFrame, scanInFrame, State.withTurns_pos]
  cases s.pos.phase
  case shiftLo => exact accessCell_withTurns fun w => rfl
  case shiftHi | strobeHi | strobeLo | oeAssert | dwell | oeRelease => rfl

theorem keepsTurns_scanStep : KeepsTurns scanStep := by
  intro s ts
  have hready : (s.withTurns ts).scanReady = s.scanReady := rfl
  rw [scanStep, scanStep, hready, State.withTurns_pos, State.withTurns_task]
  split
  · rfl
  · split
    · exact keepsTurns_scanInFrame s ts
    · split <;> rfl

theorem keepsTurns_agentStep (a : Agent) : KeepsTurns (agentStep a) := by
  cases a
  · exact keepsTurns_hostStep
  · exact keepsTurns_scanStep

/-- With a turn laid down a step is that agent's step, and the turn is used up (R69). -/
theorem step_withTurns (s : State) (a : Agent) (ts : List Agent) :
    step (s.withTurns (a :: ts)) = mapNext (fun t => t.withTurns ts) (agentStep a s) := by
  have htake : (s.withTurns (a :: ts)).takeTurn = s.withTurns ts := rfl
  rw [step, nextTurn_of_turns (s := s.withTurns (a :: ts)) rfl, htake, keepsTurns_agentStep a s ts]

/-- Settles O7, by induction on the order: the step machine takes the turns laid down one by one. -/
theorem everyInterleavingIsARun : Obligations.EveryInterleavingIsARun := by
  intro order later
  induction order with
  | nil => intro s; rfl
  | cons a rest ih =>
    intro s
    rw [List.length_cons, List.cons_append, iterate, runAgents, step_withTurns]
    cases agentStep a s with
    | next t => exact ih t
    | fault why => rfl
    | refused why => rfl

end Machine
end Sys2Proof
end

section
/-! PROOFS. What each agent leaves unchanged, and what follows of the output, of the task register and of the framebuffer
(`10_state.md` section 5, `20_memory.md` sections 2 and 4, `45_task_control.md`, `70_reset_and_hazards.md` section 1). -/

namespace Sys2Proof
namespace Machine

/-! ### The state each agent writes -/

/-- The state of the output, the binding and the parameters is as before, and so is the position but for its request. -/
structure HostFrame (s t : State) : Prop where
  cfg : t.cfg = s.cfg
  io : t.io = s.io
  pos : t.pos = { s.pos with frameReq := t.pos.frameReq }
  outputReg : t.outputReg = s.outputReg
  dwellTimer : t.dwellTimer = s.dwellTimer
  trace : t.trace = s.trace

theorem hostFrame_of_commandMove {i : Instr} {s t : State} (h : CommandMove s i t) : HostFrame s t := by
  cases h <;> exact ⟨rfl, rfl, rfl, rfl, rfl, rfl⟩

theorem hostFrame_of_hostMove {s t : State} (h : HostMove s t) : HostFrame s t := by
  cases h with
  | wait | waited | resize | illegal => exact ⟨rfl, rfl, rfl, rfl, rfl, rfl⟩
  | store a w _ _ _ _ hgo => rcases hgo with rfl | ⟨op, rfl, -⟩ <;> exact ⟨rfl, rfl, rfl, rfl, rfl, rfl⟩
  | command cw rest i _ _ _ _ _ hmove =>
    obtain ⟨hcfg, hio, hpos, hout, hdwell, htrace⟩ := hostFrame_of_commandMove hmove
    exact ⟨hcfg, hio, hpos, hout, hdwell, htrace⟩

/-- A move of SCAN changes the position, the task register and the output only (R25, R182). -/
theorem eq_of_scanMove {s t : State} (h : ScanMove s t) :
    t = { s with pos := t.pos, task := t.task, outputReg := t.outputReg, dwellTimer := t.dwellTimer, trace := t.trace } := by
  cases h <;> rfl

theorem State.eq_of_hostFrame {s t : State} (h : HostFrame s t) :
    t = { s with fb := t.fb, pwmBits := t.pwmBits, brightness := t.brightness, task := t.task, hostOp := t.hostOp,
                 inputReg := t.inputReg, results := t.results, port := t.port, env := t.env,
                 pos := { s.pos with frameReq := t.pos.frameReq } } := by
  obtain ⟨hcfg, hio, hpos, hout, hdwell, htrace⟩ := h
  rw [← hcfg, ← hio, ← hout, ← hdwell, ← htrace, ← hpos]

/-- Settles O54: each agent's moves are updates of its own registers. -/
theorem agentsWriteOnlyTheirOwnState : Obligations.AgentsWriteOnlyTheirOwnState := fun _ _ =>
  ⟨fun h => eq_of_scanMove (scanMove_of_scanStep h),
    fun h => State.eq_of_hostFrame (hostFrame_of_hostMove (hostMove_of_hostStep h))⟩

/-! ### The output events of a step -/

/-- Settles O53: HOST makes no output event and every move of SCAN makes at most one, with its register. -/
theorem outputRegisterShowsTheLastWrite : Obligations.OutputRegisterShowsTheLastWrite := by
  refine ⟨fun s t hstep => ?_, fun c => nofun⟩
  have hshape : (t.trace = s.trace ∧ t.outputReg = s.outputReg ∧ t.dwellTimer = s.dwellTimer) ∨
      (∃ w, t.trace = .write w :: s.trace ∧ t.outputReg = w ∧ t.dwellTimer = s.dwellTimer) ∨
      (∃ d, t.trace = .dwell d :: s.trace ∧ t.outputReg = s.outputReg ∧ t.dwellTimer = d) := by
    rcases move_of_step hstep with hmove | hmove
    · obtain ⟨-, -, -, hout, hdwell, htrace⟩ := hostFrame_of_hostMove hmove
      exact .inl ⟨htrace, hout, hdwell⟩
    · cases hmove with
      | rest | confirm | start => exact .inl ⟨rfl, rfl, rfl⟩
      | write w => exact .inr (.inl ⟨w, rfl, rfl, rfl⟩)
      | dwell d => exact .inr (.inr ⟨d, rfl, rfl, rfl⟩)
  refine ⟨fun hshown w hw => ?_, hshape⟩
  rcases hshape with ⟨htrace, hout, -⟩ | ⟨v, htrace, hout, -⟩ | ⟨d, htrace, hout, -⟩ <;> rw [htrace] at hw
  · rw [hout, hshown w hw]
  · have hvw : v = w := by simpa [writesOf] using hw
    rw [hout, hvw]
  · rw [hout]
    exact hshown w hw

/-! ### Clean output words -/

/-- A field of R90 that carries no input signal. -/
def IsOutputField (f : WordField) : Prop := f ∉ [.sw1, .sw2, .joy0, .joy1, .joy2, .joy3]

/-- A word all of whose bits lie in output fields is clean: they are used bits, and apart from the input fields (R95). -/
theorem cleanWord_of_bits {L : Layout} (hL : L.wf = true) {w : Word}
    (h : ∀ i, w.getLsbD i = true → ∃ f, IsOutputField f ∧ i ∈ L.bits f) : CleanWord L w := by
  have hzero {m : Word} (hm : ∀ i, w.getLsbD i = true → m.getLsbD i = false) : w &&& m = 0#32 := by
    apply BitVec.eq_of_getLsbD_eq
    intro i _
    cases hw : w.getLsbD i
    · rw [BitVec.getLsbD_and, hw, Bool.false_and, BitVec.getLsbD_zero]
    · rw [BitVec.getLsbD_and, hm i hw, Bool.and_false, BitVec.getLsbD_zero]
  refine ⟨hzero fun i hi => ?_, hzero fun i hi => ?_⟩ <;> obtain ⟨f, hf, hif⟩ := h i hi
  · rw [BitVec.getLsbD_not, (getLsbD_usedMask_iff hL).2 ⟨f, hif⟩, Bool.not_true, Bool.and_false]
  · rw [Layout.inMask, L.getLsbD_maskOf, List.any_eq_false]
    intro g hg
    have hgf : g ≠ f := fun heq => hf (heq ▸ hg)
    simpa [L.getLsbD_mask] using fun _ hig => Layout.wf_disjoint hL hgf hig hif

/-- The bits of the control part are in its four fields (R99). -/
theorem mem_bits_of_getLsbD_ctl {L : Layout} {rr : Nat} {clk stb oe : Bool} {i : Nat}
    (h : (L.ctl rr clk stb oe).getLsbD i = true) : ∃ f ∈ [.row, .clock, .strobe, .outputEnable], i ∈ L.bits f := by
  have hplace {f : WordField} {v : Int} (hf : (L.place f v).getLsbD i = true) : i ∈ L.bits f := by
    rw [L.getLsbD_place, Bool.and_eq_true, decide_eq_true_eq] at hf
    exact hf.1.2
  simp only [ctl_eq_place, BitVec.getLsbD_or, Bool.or_eq_true] at h
  rcases h with ((h | h) | h) | h
  · exact ⟨_, by simp, hplace h⟩
  · exact ⟨_, by simp, hplace h⟩
  · exact ⟨_, by simp, hplace h⟩
  · exact ⟨_, by simp, hplace h⟩

/-- `RGB_MASK` has exactly the bits of the six triplet fields (R93). -/
theorem getLsbD_rgbMask_iff {L : Layout} {i : Nat} :
    L.rgbMask.getLsbD i = true ↔ ∃ f ∈ [.r1, .g1, .b1, .r2, .g2, .b2], i < 32 ∧ i ∈ L.bits f := by
  simp only [Layout.rgbMask, Layout.rgb1Mask, Layout.rgb2Mask, BitVec.getLsbD_or, L.getLsbD_maskOf, L.getLsbD_mask,
    ← List.any_append, List.any_eq_true, decide_eq_true_eq]
  rfl

/-- The bits of a colour word are in the six triplet fields (R93). -/
theorem mem_bits_of_getLsbD_colour {L : Layout} {cur : Word} (hcur : cur &&& ~~~ L.rgbMask = 0#32) {i : Nat}
    (h : cur.getLsbD i = true) : ∃ f ∈ [.r1, .g1, .b1, .r2, .g2, .b2], i ∈ L.bits f := by
  have hi : i < 32 := BitVec.lt_of_getLsbD h
  have hmask : L.rgbMask.getLsbD i = true := by
    have hbit := congrArg (BitVec.getLsbD · i) hcur
    simpa only [BitVec.getLsbD_and, BitVec.getLsbD_not, h, hi, decide_true, Bool.true_and, BitVec.getLsbD_zero,
      Bool.not_eq_false'] using hbit
  obtain ⟨f, hf, -, hif⟩ := getLsbD_rgbMask_iff.1 hmask
  exact ⟨f, hf, hif⟩

/-- The words SCAN writes are clean: colour bits of the triplets and a control part (R95). -/
theorem cleanWord_of_outputForm {s : State} (hL : s.cfg.layout.wf = true) {w : Word} (h : OutputForm s w) :
    CleanWord s.cfg.layout w := by
  obtain ⟨cur, clk, stb, oe, rfl, hcur⟩ := h
  refine cleanWord_of_bits hL fun i hi => ?_
  have hout {f : WordField} (hf : f ∈ [.r1, .g1, .b1, .r2, .g2, .b2] ∨ f ∈ [.row, .clock, .strobe, .outputEnable]) :
      IsOutputField f := by
    cases f <;> simp_all [IsOutputField]
  rw [BitVec.getLsbD_or, Bool.or_eq_true] at hi
  rcases hi with hi | hi
  · obtain ⟨f, hf, hif⟩ := mem_bits_of_getLsbD_colour hcur hi
    exact ⟨f, hout (.inl hf), hif⟩
  · obtain ⟨f, hf, hif⟩ := mem_bits_of_getLsbD_ctl hi
    exact ⟨f, hout (.inr hf), hif⟩

/-- Settles O52: the one word a step of SCAN writes is colour bits and a control part; HOST writes none. -/
theorem outputWordsStayClean : Obligations.OutputWordsStayClean := by
  intro s t hinv hclean hstep
  rcases move_of_step hstep with hmove | hmove
  · obtain ⟨hcfg, -, -, -, -, htrace⟩ := hostFrame_of_hostMove hmove
    rw [CleanTrace, hcfg, htrace]
    exact hclean
  · cases hmove with
    | rest | confirm | start => exact hclean
    | dwell d => exact hclean
    | write w q _ _ hword =>
      have hw := cleanWord_of_outputForm (s := s.takeTurn) (Config.layout_wf hinv.params) (hword hinv.takeTurn.pos)
      intro v hv
      rcases List.mem_cons.1 (hv : v ∈ w :: writesOf s.trace) with rfl | hv
      · exact hw
      · exact hclean v hv

/-! ### The task register -/

/-- Settles O48: START, STOP and SCAN's confirmation are the only moves that write the task register. -/
theorem taskMovesOnlyAlongTheLifecycle : Obligations.TaskMovesOnlyAlongTheLifecycle := by
  refine ⟨fun s t hstep => ?_, fun s hport htask => ⟨exec_start_refused hport (by simp [htask]),
    exec_stop_refused hport (by simp [htask])⟩⟩
  rcases move_of_step hstep with hmove | hmove
  · cases hmove with
    | wait | waited | resize | illegal => exact .inl rfl
    | store a w _ _ _ _ hgo => rcases hgo with rfl | ⟨op, rfl, -⟩ <;> exact .inl rfl
    | command cw rest i _ _ _ _ _ hmove =>
      cases hmove with
      | complete | hold | resize | brighter | darker | readInput | request => exact .inl rfl
      | start htask => exact .inr (.inl ⟨htask, rfl⟩)
      | stop htask => exact .inr (.inr (.inl ⟨htask, rfl⟩))
  · cases hmove with
    | rest | start | write | dwell => exact .inl rfl
    | confirm _ _ htask => exact .inr (.inr (.inr ⟨htask, rfl⟩))

/-! ### A failed block -/

/-- Settles O13: without its binding a block admits no command and SCAN has no step; HOST writes no output. -/
theorem failedBlockStaysDark : Obligations.FailedBlockStaysDark := by
  refine ⟨fun s hio => ?_, fun c => ⟨rfl, rfl⟩⟩
  have hrest {s : State} (hio : s.io = .failed) : scanStep s = .next s := by simp [scanStep, State.scanReady, hio]
  refine ⟨exec_of_failed hio, hrest hio, fun t hstep => ?_⟩
  rcases step_cases s with hs | hs <;> rw [hs] at hstep
  · obtain ⟨-, hio', -, hout, -, htrace⟩ := hostFrame_of_hostMove (hostMove_of_hostStep hstep)
    exact ⟨hio'.trans hio, htrace, hout⟩
  · rw [hrest (s := s.takeTurn) hio] at hstep
    cases hstep
    exact ⟨hio, rfl, rfl⟩

/-! ### The framebuffer -/

/-- Taking a command changes no cell, but for a valid SETPWMBITS outside a frame, which clears them all (R211). -/
theorem fb_of_commandMove {i : Instr} {s t : State} (h : CommandMove s i t) :
    (t.fb = s.fb ∧ ∀ n, i = .setPwmBits n → 1 ≤ n → n ≤ 11 → s.pos.inFrame = true) ∨
      (t.fb = [] ∧ s.pos.inFrame = false ∧ ∃ n, i = .setPwmBits n ∧ 1 ≤ n ∧ n ≤ 11) := by
  cases h with
  | complete _ r hkeep => exact .inl ⟨rfl, hkeep⟩
  | hold _ op _ hkeep => exact .inl ⟨rfl, hkeep⟩
  | resize n p hn _ hout => exact .inr ⟨rfl, hout, n, rfl, hn⟩
  | brighter | darker | readInput | request | start | stop => exact .inl ⟨rfl, nofun⟩

/-- What a turn of HOST leaves in the framebuffer: all but the cell in hand, nothing, or all of it (R66, R182). -/
def FbChange (s t : State) : Prop :=
  (∀ a, cellInHand s = some a → ∀ b, b ≠ a → t.fb.read b = s.fb.read b) ∧
    (cellInHand s = none → ClearsAll s → ∀ b, t.fb.read b = 0#32) ∧
    (cellInHand s = none → ¬ ClearsAll s → t.fb = s.fb)

theorem FbChange.keep {s t : State} (hfb : t.fb = s.fb) (hkeep : ¬ ClearsAll s) : FbChange s t :=
  ⟨fun _ _ b _ => by rw [hfb], fun _ hclear => absurd hclear hkeep, fun _ _ => hfb⟩

theorem FbChange.clear {s t : State} (hfb : t.fb = []) (hcell : cellInHand s = none) (hclear : ClearsAll s) :
    FbChange s t :=
  ⟨fun a ha => by simp [hcell] at ha, fun _ _ b => by rw [hfb, Memory.read_nil], fun _ hkeep => absurd hclear hkeep⟩

theorem FbChange.store {s t : State} {a : Nat} {w : Word} (hcanon : s.fb.wf = true) (hcell : cellInHand s = some a)
    (hfb : t.fb = s.fb.write a w) : FbChange s t := by
  refine ⟨fun a' ha' b hb => ?_, fun hnone => by simp [hcell] at hnone, fun hnone => by simp [hcell] at hnone⟩
  obtain rfl : a = a' := by simpa [hcell] using ha'
  rw [hfb, Memory.read_write a b w hcanon, if_neg hb]

theorem fbChange_of_hostMove {s t : State} (hcanon : s.fb.wf = true) (h : HostMove s t) : FbChange s t := by
  cases h with
  | wait _ hkeep => exact .keep rfl hkeep
  | waited hdone =>
    refine .keep rfl ?_
    rcases hdone with ⟨hop, -⟩ | ⟨hop, -⟩ <;> exact not_clearsAll_of_hostOp (by simp [hop]) (by simp [hop])
  | resize n hop hout => exact .clear rfl (by simp [cellInHand, hop]) ⟨hout, .inl ⟨n, hop⟩⟩
  | store a w _ hcell _ _ hgo => rcases hgo with rfl | ⟨op, rfl, -⟩ <;> exact .store hcanon hcell rfl
  | illegal cw rest why hop _ hport hdec => exact .keep rfl (by simp [ClearsAll, hop, hport, hdec])
  | command cw rest i _ hop hport hdec _ hmove =>
    rcases fb_of_commandMove hmove with ⟨hfb, hkeep⟩ | ⟨hfb, hout, n, rfl, hn⟩
    · refine .keep hfb ?_
      rintro ⟨hout, ⟨p, hp⟩ | ⟨-, cw', rest', n, hport', hdec', h1, h11⟩⟩
      · simp [hop] at hp
      · obtain ⟨rfl, rfl⟩ : cw = cw' ∧ rest = rest' := by simpa [hport] using hport'
        have hi : i = .setPwmBits n := by simpa [hdec] using hdec'
        have hin : s.pos.inFrame = true := hkeep n hi h1 h11
        simp [hout] at hin
    · exact .clear hfb (by simp [cellInHand, hop]) ⟨hout, .inr ⟨hop, cw, rest, n, hport, hdec, hn⟩⟩

/-- Settles O56: SCAN writes no cell, and HOST only by a micro-step or the clearing step. -/
theorem stepsChangeOneCellAtATime : Obligations.StepsChangeOneCellAtATime := by
  intro s t hinv hstep
  refine ⟨fun hturn => ?_, fun hturn => ?_⟩
  · rw [step_of_scan hturn] at hstep
    rw [eq_of_scanMove (scanMove_of_scanStep hstep)]
    rfl
  · rw [step_of_host hturn] at hstep
    exact fbChange_of_hostMove (s := s.takeTurn) hinv.canonical (hostMove_of_hostStep hstep)

/-- Settles O57: the canonical form is what makes a list of cells an array. -/
theorem cellReadsTheLatestWrite : Obligations.CellReadsTheLatestWrite :=
  ⟨Memory.read_nil, fun _ a w hcanon => ⟨Memory.wf_write a w hcanon, fun b => Memory.read_write a b w hcanon⟩⟩

end Machine
end Sys2Proof
end

section
/-! PROOFS. Construction and new construction (`70_reset_and_hazards.md` sections 1 and 2, `10_state.md` section 6). -/

namespace Sys2Proof
namespace Machine

theorem construct_of_wf_eq_false {c : Config} (hwf : c.wf = false) : construct c = .notABlock := if_pos hwf

theorem construct_of_foldOk_eq_false {c : Config} (hwf : c.wf = true) (hfold : c.foldOk = false) :
    construct c = .fatal .foldGeometry := by simp [construct, hwf, hfold]

theorem construct_of_ioInitOk_eq_false {c : Config} (hwf : c.wf = true) (hfold : c.foldOk = true)
    (hio : c.ioInitOk = false) : construct c = .fatal .ioInitFailed := by simp [construct, hwf, hfold, hio]

theorem construct_eq_built {c : Config} (hwf : c.wf = true) (hfold : c.foldOk = true) (hio : c.ioInitOk = true) :
    construct c = .built (State.initial c) := by simp [construct, hwf, hfold, hio]

/-- Settles O10: each failed check ends the sequence where it stands, and none failing leaves the reset state. -/
theorem constructionFollowsTheSequence : Obligations.ConstructionFollowsTheSequence := fun _ =>
  ⟨construct_of_wf_eq_false, construct_of_foldOk_eq_false, construct_of_ioInitOk_eq_false, fun hwf hfold hio =>
    ⟨_, construct_eq_built hwf hfold hio, rfl, rfl, fun _ _ _ => rfl, rfl, rfl, rfl, rfl, rfl, rfl, rfl⟩⟩

/-- Settles O12: `State.initial` holds the values, and the reference parameters pass construction. -/
theorem resetLeavesTheSpecsValues : Obligations.ResetLeavesTheSpecsValues :=
  ⟨fun _ => ⟨fun _ _ _ => rfl, rfl, rfl, rfl, rfl, rfl, rfl, rfl, rfl, rfl, rfl, rfl, rfl⟩, rfl,
    construct_eq_built (by decide) (by decide) (by decide)⟩

/-- A block may be constructed anew where no task runs and no frame is in progress (R295). -/
theorem State.mayReset_iff (s : State) :
    s.mayReset = true ↔ (s.task = .created ∨ s.task = .joined) ∧ s.pos.inFrame = false := by
  simp [State.mayReset]

/-- Settles O14: `mayReset` is the condition, and good parameters are built. -/
theorem reconstructionOnlyAtRest : Obligations.ReconstructionOnlyAtRest := by
  intro c s hwf hfold hio
  refine ⟨fun hrest => ?_, fun hbusy => ?_⟩
  · have hmay := s.mayReset_iff.2 hrest
    simp [reconstruct, hmay, construct_eq_built hwf hfold hio, State.replacedBy]
  · have hmay : s.mayReset = false := by simpa using mt s.mayReset_iff.1 hbusy
    simp [reconstruct, hmay]

end Machine
end Sys2Proof
end

section
/-! PROOFS. Settings: the admissible ramps, the valid plane count, the laws of the brightness and the input word
(`30_encoding.md` section 3, `43_config_ops.md`). -/

namespace Sys2Proof
namespace Machine

/-- Settles O20: the parameters of a block have an admissible ramp, and the shift ramp is its two formulas. -/
theorem rampScalesToPBits : Obligations.RampScalesToPBits := by
  refine ⟨fun c p hwf h1 h11 => ?_, fun v p => ⟨fun h8 => if_pos h8, fun h9 => if_neg (by omega)⟩⟩
  obtain ⟨-, -, -, -, -, -, hramp, -⟩ := Config.wf_iff hwf
  exact Ramp.apply_props hramp h1 h11

/-! ### The plane count -/

theorem planeCount_eq_some {n : Int} (h1 : 1 ≤ n) (h11 : n ≤ 11) : planeCount n = some (BitVec.ofNat 4 n.toNat) := by
  rw [planeCount_eq_ite, if_pos ⟨h1, h11⟩]

theorem exec_setPwmBits {s : State} (hport : PortFree s) {n : Int} {p : BitVec 4} (hp : planeCount n = some p) :
    exec (.setPwmBits n) s = .next (applyPwmBits p s) := by
  have hadm : Admitted (.setPwmBits n) s := ⟨hport, nofun, nofun, nofun⟩
  simp [exec_of_admitted hadm, hp]

theorem hostStep_setPwmBits {s : State} {p : BitVec 4} (hop : s.hostOp = .setPwmBits p) :
    hostStep s = .next (applyPwmBits p s) := by simp [hostStep, hop]

/-- Outside a frame the clearing step is done whole (R211). -/
theorem applyPwmBits_of_out {s : State} (hout : s.pos.inFrame = false) (p : BitVec 4) :
    applyPwmBits p s = { s with pwmBits := p, fb := [], hostOp := .idle, results := .ok :: s.results } := by
  simp [applyPwmBits, hout, State.resize, State.complete]

/-- In a frame the plane count is held (R211). -/
theorem applyPwmBits_of_in {s : State} (hin : s.pos.inFrame = true) (p : BitVec 4) :
    applyPwmBits p s = { s with hostOp := .setPwmBits p } := by simp [applyPwmBits, hin, State.hold]

/-- A held plane count keeps SCAN from starting a frame (R183, R211). -/
theorem scanStep_of_resizeHeld {s : State} {p : BitVec 4} (hop : s.hostOp = .setPwmBits p) (hout : s.pos.inFrame = false)
    (htask : s.task ≠ .stopping) : scanStep s = .next s := by
  have hheld : s.resizeHeld = true := by simp [State.resizeHeld, hop]
  simp [scanStep, State.scanReady, State.frameStartEnabled, hheld, hout, htask]

/-- Settles O31: in a frame the plane count is held and stays held, outside it is applied in one step. -/
theorem validPlaneCountClearsAtAFrameBoundary : Obligations.ValidPlaneCountClearsAtAFrameBoundary := by
  rintro s n p h1 h11 rfl
  have hcount := planeCount_eq_some h1 h11
  refine ⟨fun hport hout => ?_, fun hport hin => ?_, fun hop hin => ?_, scanStep_of_resizeHeld, fun hop hout => ?_, ?_,
    Memory.read_nil⟩
  · rw [exec_setPwmBits hport hcount, applyPwmBits_of_out hout, ← hport.2]
  · rw [exec_setPwmBits hport hcount, applyPwmBits_of_in hin]
  · rw [hostStep_setPwmBits hop, applyPwmBits_of_in hin, ← hop]
  · rw [hostStep_setPwmBits hop, applyPwmBits_of_out hout]
  · rw [BitVec.toNat_ofNat, Nat.mod_eq_of_lt (by omega)]

/-! ### The brightness -/

theorem nextBrighter_laws {br : BitVec 4} (h1 : 1 ≤ br.toNat) (h10 : br.toNat ≤ 10) :
    (nextBrighter br).toNat = br.toNat % 10 + 1 ∧ nextDarker (nextBrighter br) = br ∧ nextBrighter^[10] br = br := by
  revert h1 h10; revert br; decide

theorem nextDarker_laws {br : BitVec 4} (h1 : 1 ≤ br.toNat) (h10 : br.toNat ≤ 10) :
    (nextDarker br).toNat = (br.toNat + 8) % 10 + 1 ∧ nextBrighter (nextDarker br) = br ∧ nextDarker^[10] br = br := by
  revert h1 h10; revert br; decide

/-- A command that steps the level on every free port steps it n times in n runs. -/
theorem iterate_exec_brightness {i : Instr} {next : BitVec 4 → BitVec 4}
    (hexec : ∀ {s : State}, PortFree s →
      exec i s = .next { s with brightness := next s.brightness, results := .ok :: s.results })
    (n : Nat) {s : State} (hport : PortFree s) :
    ∃ t, iterate (exec i) n s = .next t ∧ t.brightness = next^[n] s.brightness := by
  induction n generalizing s with
  | zero => exact ⟨s, rfl, rfl⟩
  | succ n ih =>
    rw [iterate_succ (hexec hport)]
    exact ih (s := { s with brightness := next s.brightness, results := .ok :: s.results }) hport

/-- Settles O33: the sixteen levels are checked one by one, and ten commands are ten steps of the level. -/
theorem brightnessLaws : Obligations.BrightnessLaws := by
  intro s hport h1 h10
  obtain ⟨hup, hupdown, hup10⟩ := nextBrighter_laws h1 h10
  obtain ⟨hdown, hdownup, hdown10⟩ := nextDarker_laws h1 h10
  obtain ⟨t, ht, htbr⟩ := iterate_exec_brightness exec_incBright 10 hport
  obtain ⟨u, hu, hubr⟩ := iterate_exec_brightness exec_decBright 10 hport
  exact ⟨_, _, exec_incBright hport, exec_decBright hport, hup, hdown,
    ⟨_, exec_decBright (s := { s with brightness := _, results := _ }) hport, hupdown⟩,
    ⟨_, exec_incBright (s := { s with brightness := _, results := _ }) hport, hdownup⟩,
    ⟨t, ht, htbr.trans hup10⟩, ⟨u, hu, hubr.trans hdown10⟩⟩

/-! ### The input word -/

theorem exec_getInput {s : State} (hport : PortFree s) :
    exec .getInput s = .next { s with inputReg := s.inputWord, env := s.env.afterInput,
                                      results := .okValue s.inputWord :: s.results } := by
  have hadm : Admitted .getInput s := ⟨hport, nofun, nofun, nofun⟩
  rw [exec_of_admitted hadm]
  exact congrArg _ (State.complete_of_idle (s := s.readInput) hport.2 _)

/-- Settles O34: the word drawn is ENV's next, or a free one. -/
theorem getInputReturnsTheWordSupplied : Obligations.GetInputReturnsTheWordSupplied := by
  intro s hport
  rw [exec_getInput hport]
  refine ⟨fun w ws h => ?_, fun h => ?_⟩ <;> simp [State.inputWord, Env.afterInput, h]

end Machine
end Sys2Proof
end

section
/-! PROOFS. The fold and the size queries (`44_fold.md`, R231 to R233; `41_pixel_ops.md` section 3). -/

namespace Sys2Proof
namespace Machine

theorem exec_getWidth {s : State} (hport : PortFree s) :
    exec .getWidth s = .next { s with results := .okValue (BitVec.ofNat 32 s.cfg.width) :: s.results } := by
  have hadm : Admitted .getWidth s := ⟨hport, nofun, nofun, nofun⟩
  simp [exec_of_admitted hadm, State.complete_of_idle hport.2]

theorem exec_getHeight {s : State} (hport : PortFree s) :
    exec .getHeight s = .next { s with results := .okValue (BitVec.ofNat 32 s.cfg.height) :: s.results } := by
  have hadm : Admitted .getHeight s := ⟨hport, nofun, nofun, nofun⟩
  simp [exec_of_admitted hadm, State.complete_of_idle hport.2]

/-- Settles O29: the surface is the panels' without the fold and the square with it. -/
theorem sizeQueriesAnswerTheSurface : Obligations.SizeQueriesAnswerTheSurface := by
  intro s hport
  rw [exec_getWidth hport, exec_getHeight hport]
  refine ⟨fun hoff => ?_, fun n hsq => ?_⟩
  · simp [Config.width, Config.height, hoff]
  · simp [Config.width, Config.height, hsq]

/-! ### The fold -/

/-- Inside the square the upper half keeps its place and the lower half is turned round behind it (R233). -/
theorem foldPixel_of_mem {c : Config} {n : Nat} (h : c.fold = .square n) {x y : Int} (hx : 0 ≤ x) (hxn : x < n) (hy : 0 ≤ y)
    (hyn : y < n) : foldPixel c x y =
      some (if y < (n / 2 : Nat) then (x, y) else ((2 * (n : Int) - 1) - x, ((n : Int) - 1) - y)) := by
  have hin : ¬ (x < 0 ∨ (n : Int) ≤ x ∨ y < 0 ∨ (n : Int) ≤ y) := by omega
  simp only [foldPixel, h, if_neg hin]
  split <;> rfl

/-- The upper half of the square is the first N columns of the strip. -/
theorem locatePixel_upper {c : Config} {n : Nat} (hfold : c.fold = .square n) (hcols : c.cols = 2 * n)
    (hrows : 2 * c.doubleRows = n / 2) {x y : Int} (hx : 0 ≤ x) (hxn : x < n) (hy : 0 ≤ y) (hyn : y < (n / 2 : Nat)) :
    locatePixel c x y = some (x.toNat, y.toNat) := by
  rw [locatePixel, foldPixel_of_mem hfold hx hxn hy (by omega), if_pos hyn]
  exact basePixel_eq_some hx (by omega) hy (by omega)

/-- The lower half of the square is the last N columns of the strip, both coordinates reversed. -/
theorem locatePixel_lower {c : Config} {n : Nat} (hfold : c.fold = .square n) (heven : n % 2 = 0) (hcols : c.cols = 2 * n)
    (hrows : 2 * c.doubleRows = n / 2) {x y : Int} (hx : 0 ≤ x) (hxn : x < n) (hy : (n / 2 : Nat) ≤ y) (hyn : y < n) :
    locatePixel c x y = some (((2 * (n : Int) - 1) - x).toNat, (((n : Int) - 1) - y).toNat) := by
  rw [locatePixel, foldPixel_of_mem hfold hx hxn (by omega) hyn, if_neg (by omega)]
  exact basePixel_eq_some (by omega) (by omega) (by omega) (by omega)

/-- A located pixel is of one of the two halves. -/
theorem locatePixel_square_cases {c : Config} {n : Nat} (hfold : c.fold = .square n) (heven : n % 2 = 0)
    (hcols : c.cols = 2 * n) (hrows : 2 * c.doubleRows = n / 2) {x y : Int} {px py : Nat}
    (h : locatePixel c x y = some (px, py)) :
    (x = px ∧ y = py ∧ px < n) ∨ (x = 2 * n - 1 - px ∧ y = n - 1 - py ∧ n ≤ px) := by
  by_cases hout : x < 0 ∨ (n : Int) ≤ x ∨ y < 0 ∨ (n : Int) ≤ y
  · rw [locatePixel_eq_none_of_fold_square hfold hout] at h
    cases h
  · by_cases hy : y < (n / 2 : Nat)
    · rw [locatePixel_upper hfold hcols hrows (by omega) (by omega) (by omega) hy] at h
      cases h
      omega
    · rw [locatePixel_lower hfold heven hcols hrows (by omega) (by omega) (by omega) (by omega)] at h
      cases h
      omega

/-- Settles O22: the two halves of the square are the two halves of the strip, each by an invertible formula. -/
theorem foldMapsTheSquare : Obligations.FoldMapsTheSquare := by
  intro c n hfold hok
  obtain ⟨heven, hcols, hrows⟩ := (Config.foldOk_of_square hfold).1 hok
  have hcases {x y : Int} {px py : Nat} (h : locatePixel c x y = some (px, py)) :=
    locatePixel_square_cases hfold heven hcols hrows h
  refine ⟨fun x y => ⟨locatePixel_upper hfold hcols hrows, locatePixel_lower hfold heven hcols hrows⟩, ?_, ?_⟩
  · rintro x y x' y' ⟨px, py⟩ h h'
    have := hcases h
    have := hcases h'
    omega
  · intro px py hpx hpy
    by_cases hhalf : px < n
    · refine ⟨px, py, by omega, by omega, by omega, by omega, ?_⟩
      exact locatePixel_upper hfold hcols hrows (by omega) (by omega) (by omega) (by omega)
    · refine ⟨2 * n - 1 - px, n - 1 - py, by omega, by omega, by omega, by omega, ?_⟩
      rw [locatePixel_lower hfold heven hcols hrows (by omega) (by omega) (by omega) (by omega)]
      simp only [Option.some.injEq, Prod.mk.injEq]
      omega

end Machine
end Sys2Proof
end

section
/-! PROOFS. The pixel commands SETPIXEL and FILL: their micro-steps and what their runs leave (`41_pixel_ops.md` sections 1
and 2, R150 to R156). -/

namespace Sys2Proof
namespace Machine

/-! ### The micro-step of a SETPIXEL -/

theorem setTriplet_upper {c : Config} {y : Nat} (hy : y < c.doubleRows) (w : Word) (p k : Nat) (r g b : Byte) :
    setTriplet c w y p k r g b = (w &&& ~~~ c.layout.rgb1Mask) |||
      c.layout.t1 (c.planeBit r p k) (c.planeBit g p k) (c.planeBit b p k) := by
  simp [setTriplet, tripletMask, tripletBits, hy]

theorem setTriplet_lower {c : Config} {y : Nat} (hy : c.doubleRows ≤ y) (w : Word) (p k : Nat) (r g b : Byte) :
    setTriplet c w y p k r g b = (w &&& ~~~ c.layout.rgb2Mask) |||
      c.layout.t2 (c.planeBit r p k) (c.planeBit g p k) (c.planeBit b p k) := by
  simp [setTriplet, tripletMask, tripletBits, Nat.not_lt.2 hy]

/-- A SETPIXEL that names a physical pixel is taken: the plane count is sampled and its micro-steps follow (R150, R152). -/
theorem exec_setPixel_of_locatePixel {s : State} (hport : PortFree s) {x y : Int} {px py : Nat} (r g b : Byte)
    (hloc : locatePixel s.cfg x y = some (px, py)) :
    exec (.setPixel x y r g b) s = .next (resumeSetPixel s 0 s.pwmBits.toNat px py r g b) := by
  have hadm : Admitted (.setPixel x y r g b) s := ⟨hport, nofun, nofun, nofun⟩
  simp [exec_of_admitted hadm, hloc]

theorem resumeSetPixel_of_lt {s : State} {k p : Nat} (h : k < p) (x y : Nat) (r g b : Byte) :
    resumeSetPixel s k p x y r g b = { s with hostOp := .setPixel k p x y r g b } := if_pos h

theorem resumeSetPixel_last (s : State) (p x y : Nat) (r g b : Byte) :
    resumeSetPixel s p p x y r g b = { s with hostOp := .idle, results := .ok :: s.results } := if_neg (Nat.lt_irrefl p)

/-- Settles O24: the taking holds plane 0, and each micro-step replaces the triplet of the pixel's half. -/
theorem setPixelMicroStep : Obligations.SetPixelMicroStep := by
  refine ⟨fun s x y px py r g b hport hplanes hloc => ?_, fun s k p x y r g b hop hx hy hk hp => ?_⟩
  · rw [exec_setPixel_of_locatePixel hport r g b hloc, resumeSetPixel_of_lt hplanes]
  · rw [hostStep_setPixel hop hx hy hk hp]
    refine ⟨setTriplet s.cfg (s.cell k (y % s.cfg.doubleRows) x) y p k r g b, fun hup => setTriplet_upper hup ..,
      fun hlow => setTriplet_lower hlow .., fun hgo => ?_, ?_⟩
    · rw [resumeSetPixel_of_lt hgo]
      rfl
    · rintro rfl
      rw [resumeSetPixel_last]
      rfl

/-! ### The run of a SETPIXEL -/

/-- The framebuffer m after the cells `cell 0` to `cell (n - 1)` have been written in this order, each with its word. -/
def Memory.writeCells (cell : Nat → Nat) (word : Nat → Word) (m : Memory) : Nat → Memory
  | 0 => m
  | n + 1 => (Memory.writeCells cell word m n).write (cell n) (word n)

theorem Memory.wf_writeCells (cell : Nat → Nat) (word : Nat → Word) {m : Memory} (hm : m.wf = true) (n : Nat) :
    (m.writeCells cell word n).wf = true := by
  induction n with
  | zero => exact hm
  | succ n ih => exact Memory.wf_write _ _ ih

/-- A cell that is none of those written reads as before. -/
theorem Memory.read_writeCells_of_ne {cell : Nat → Nat} (word : Nat → Word) {m : Memory} (hm : m.wf = true) {n a : Nat}
    (ha : ∀ k, k < n → a ≠ cell k) : (m.writeCells cell word n).read a = m.read a := by
  induction n with
  | zero => rfl
  | succ n ih =>
    rw [Memory.writeCells, Memory.read_write _ _ _ (Memory.wf_writeCells cell word hm n), if_neg (ha n (Nat.lt_succ_self n))]
    exact ih fun k hk => ha k (Nat.lt_succ_of_lt hk)

/-- Each of distinct cells reads the word written to it. -/
theorem Memory.read_writeCells {cell : Nat → Nat} (hinj : Function.Injective cell) (word : Nat → Word) {m : Memory}
    (hm : m.wf = true) {n k : Nat} (hk : k < n) : (m.writeCells cell word n).read (cell k) = word k := by
  induction n with
  | zero => exact absurd hk (Nat.not_lt_zero k)
  | succ n ih =>
    rw [Memory.writeCells, Memory.read_write _ _ _ (Memory.wf_writeCells cell word hm n)]
    by_cases hkn : k = n
    · rw [if_pos (by rw [hkn]), hkn]
    · rw [if_neg fun h => hkn (hinj h), ih (by omega)]

/-- What a `SetPixel` of the colour (r, g, b) at the physical pixel (x, y) writes in plane k over the framebuffer m (R152). -/
def pixelWord (c : Config) (m : Memory) (p x y : Nat) (r g b : Byte) (k : Nat) : Word :=
  setTriplet c (m.read (pixelCell c k x y)) y p k r g b

/-- The framebuffer m after the first n planes of a `SetPixel` (R152). -/
def drawPlanes (c : Config) (m : Memory) (p x y : Nat) (r g b : Byte) (n : Nat) : Memory :=
  m.writeCells (fun k => pixelCell c k x y) (pixelWord c m p x y r g b) n

/-- After n micro-steps of a `SetPixel` the first n planes are drawn and the command stands at plane n (R152). -/
theorem iterate_hostStep_resumeSetPixel {s : State} (hcanon : s.fb.wf = true) {p x y : Nat} (hx : x < s.cfg.cols)
    (hy : y < 2 * s.cfg.doubleRows) (hp : p ≤ 11) (r g b : Byte) {n : Nat} (hn : n ≤ p) :
    iterate hostStep n (resumeSetPixel s 0 p x y r g b) =
      .next (resumeSetPixel { s with fb := drawPlanes s.cfg s.fb p x y r g b n } n p x y r g b) := by
  induction n with
  | zero => rfl
  | succ n ih =>
    refine (iterate_add (ih (Nat.le_of_succ_le hn)) 1).trans (iterate_succ ?_ 0)
    have hfresh : (drawPlanes s.cfg s.fb p x y r g b n).read (pixelCell s.cfg n x y) = s.fb.read (pixelCell s.cfg n x y) :=
      Memory.read_writeCells_of_ne _ hcanon fun k hk h => absurd (pixelCell_inj hx hy h) (by omega)
    rw [resumeSetPixel_of_lt hn,
      hostStep_setPixel (s := { s with fb := drawPlanes s.cfg s.fb p x y r g b n, hostOp := _ }) rfl hx hy hn hp, hfresh]
    rfl

/-- Settles O25: the micro-steps draw the planes one by one, each in a cell of its own. -/
theorem setPixelDrawsThePixel : Obligations.SetPixelDrawsThePixel := by
  intro s x y px py r g b hinv hport hloc
  obtain ⟨hx, hy⟩ := locatePixel_lt hloc
  have hrun := iterate_hostStep_resumeSetPixel hinv.canonical hx hy hinv.planes.2 r g b (Nat.le_refl _)
  rw [resumeSetPixel_last] at hrun
  have hread {k : Nat} (hk : k < s.pwmBits.toNat) :
      (drawPlanes s.cfg s.fb s.pwmBits.toNat px py r g b s.pwmBits.toNat).read (pixelCell s.cfg k px py) =
        setTriplet s.cfg (s.fb.read (pixelCell s.cfg k px py)) py s.pwmBits.toNat k r g b :=
    Memory.read_writeCells (fun _ _ => pixelCell_inj hx hy) _ hinv.canonical hk
  refine ⟨_, _, exec_setPixel_of_locatePixel hport r g b hloc, resumeSetPixel_of_lt hinv.planes.1 .., hrun,
    by rw [← hport.2], fun k hk => ⟨planeBits_of_setTriplet (Config.layout_wf hinv.params) (hread hk), ?_⟩,
    fun a ha => Memory.read_writeCells_of_ne _ hinv.canonical ha⟩
  rw [hread hk, setTriplet_and_not_tripletMask]

/-! ### The run of a FILL -/

theorem exec_fill {s : State} (hport : PortFree s) (r g b : Byte) :
    exec (.fill r g b) s = .next (resumeFill s 0 s.pwmBits.toNat r g b) :=
  exec_of_admitted (i := .fill r g b) ⟨hport, nofun, nofun, nofun⟩

theorem resumeFill_of_lt {s : State} {n p : Nat} (h : n < p * planeCells s.cfg) (r g b : Byte) :
    resumeFill s n p r g b = { s with hostOp := .fill n p r g b } := if_pos h

theorem resumeFill_last (s : State) (p : Nat) (r g b : Byte) :
    resumeFill s (p * planeCells s.cfg) p r g b = { s with hostOp := .idle, results := .ok :: s.results } :=
  if_neg (Nat.lt_irrefl _)

/-- The word of cell a in a `Fill` (R155, R156). -/
def fillCell (c : Config) (p : Nat) (r g b : Byte) (a : Nat) : Word := fillWord c p (a / planeCells c) r g b

/-- The step of a `Fill` in progress that stands at an active cell (R156). -/
theorem hostStep_fill {s : State} {n p : Nat} {r g b : Byte} (hop : s.hostOp = .fill n p r g b) (hp : p ≤ 11)
    (hn : n < p * planeCells s.cfg) :
    hostStep s = .next (resumeFill (s.storeCell n (fillCell s.cfg p r g b n)) (n + 1) p r g b) := by
  simp only [hostStep, hop, microFill]
  exact accessCell_of_lt (lt_fbWords hp hn) _

/-- After n micro-steps of a `Fill` the cells below n are painted and the command stands at cell n (R156). -/
theorem iterate_hostStep_resumeFill (s : State) {p : Nat} (hp : p ≤ 11) (r g b : Byte) {n : Nat}
    (hn : n ≤ p * planeCells s.cfg) :
    iterate hostStep n (resumeFill s 0 p r g b) =
      .next (resumeFill { s with fb := s.fb.writeFirst (fillCell s.cfg p r g b) n } n p r g b) := by
  induction n with
  | zero => rfl
  | succ n ih =>
    refine (iterate_add (ih (Nat.le_of_succ_le hn)) 1).trans (iterate_succ ?_ 0)
    rw [resumeFill_of_lt (s := { s with fb := s.fb.writeFirst (fillCell s.cfg p r g b) n }) hn,
      hostStep_fill (s := { s with fb := s.fb.writeFirst (fillCell s.cfg p r g b) n, hostOp := _ }) rfl hp hn]
    rfl

/-- Settles O26: the micro-steps paint every cell below the active planes' end, and a cell's plane is its index divided by
the cells of a plane. -/
theorem fillPaintsEveryActiveCell : Obligations.FillPaintsEveryActiveCell := by
  intro s r g b hinv hport
  have hcells : 0 < s.pwmBits.toNat * planeCells s.cfg := Nat.mul_pos hinv.planes.1 (planeCells_pos hinv.params)
  have hrun := iterate_hostStep_resumeFill s hinv.planes.2 r g b (Nat.le_refl _)
  rw [resumeFill_last] at hrun
  have hread := Memory.read_writeFirst (fillCell s.cfg s.pwmBits.toNat r g b) hinv.canonical
    (s.pwmBits.toNat * planeCells s.cfg)
  refine ⟨_, _, exec_fill hport r g b, resumeFill_of_lt hcells r g b, hrun, by rw [← hport.2], fun k rr col hk hrr hcol => ?_,
    fun a ha => by rw [hread, if_neg (Nat.not_lt.2 ha)]⟩
  rw [State.cell, hread, if_pos (addr_lt_planes hk hrr hcol), fillCell, addr_div_planeCells hrr hcol]
  rfl

/-! ### FILL against two SETPIXELs -/

/-- The two triplets of a well-formed layout share no bit (R91, R93). -/
theorem t1_and_rgb2Mask {L : Layout} (hL : L.wf = true) (r g b : Bool) : L.t1 r g b &&& L.rgb2Mask = 0#32 := by
  have hn := Layout.triplets_nodup hL
  simp only [List.nodup_cons, List.mem_cons, List.not_mem_nil, not_or, or_false] at hn
  obtain ⟨⟨-, -, hrr, hrg, hrb⟩, ⟨-, hgr, hgg, hgb⟩, ⟨hbr, hbg, hbb⟩, -⟩ := hn
  apply BitVec.eq_of_getLsbD_eq
  intro i _
  rw [BitVec.getLsbD_and, L.rgbMasks_eq.2, L.getLsbD_t1, L.getLsbD_t2]
  by_cases hi : i = L.r1 ∨ i = L.g1 ∨ i = L.b1
  · rcases hi with rfl | rfl | rfl
    · simp [hrr, hrg, hrb]
    · simp [hgr, hgg, hgb]
    · simp [hbr, hbg, hbb]
  · simp only [not_or] at hi
    simp [hi]

/-- Replacing the triplet at m1 and then the one at m2 leaves only the new triplets, where the word had no other bit. -/
theorem replace_both {w m1 m2 t1 t2 : Word} (hw : w &&& ~~~ (m1 ||| m2) = 0#32) (ht : t1 &&& m2 = 0#32) :
    ((w &&& ~~~ m1 ||| t1) &&& ~~~ m2) ||| t2 = t1 ||| t2 := by
  have hkept : (w &&& ~~~ m1) &&& ~~~ m2 = 0#32 := by rw [BitVec.and_assoc, ← BitVec.not_or, hw]
  have hnew : t1 &&& ~~~ m2 = t1 := by
    apply BitVec.eq_of_getLsbD_eq
    intro i hi
    have hbit := congrArg (BitVec.getLsbD · i) ht
    simp only [BitVec.getLsbD_and, BitVec.getLsbD_not, BitVec.getLsbD_zero, hi, decide_true, Bool.true_and] at hbit ⊢
    cases hm : m2.getLsbD i <;> simp_all
  rw [BitVec.and_or_distrib_right, hkept, hnew, BitVec.zero_or]

/-- Settles O27: the two triplets of a cell lie apart, so the second SETPIXEL leaves the first's as it is. -/
theorem fillWordIsBothPixelsOfTheCell : Obligations.FillWordIsBothPixelsOfTheCell := by
  intro c w p k y r g b hL hy hw
  rw [setTriplet_lower (Nat.le_add_left ..), setTriplet_upper hy]
  exact replace_both hw (t1_and_rgb2Mask hL ..)

end Machine
end Sys2Proof
end

section
/-! PROOFS. The sequencer: the frame start and the steps of a pass (`42_scanout.md` section 2, R183 to R190). -/

namespace Sys2Proof
namespace Machine

/-! ### The frame start -/

/-- Between frames, with no task stopping, SCAN starts a frame exactly where it is enabled (R183). -/
theorem scanStep_between {s : State} (hio : s.io = .ready) (hout : s.pos.inFrame = false) (htask : s.task ≠ .stopping) :
    scanStep s = .next (if s.frameStartEnabled then scanFrameStart s else s) := by
  cases hen : s.frameStartEnabled <;> simp [scanStep, State.scanReady, hio, hout, htask, hen]

/-- The frame start is enabled by the task or a request, unless a plane count is held (R183). -/
theorem frameStartEnabled_iff {s : State} (hout : s.pos.inFrame = false) :
    s.frameStartEnabled = true ↔ (s.task = .running ∨ s.pos.frameReq = true) ∧ ∀ n, s.hostOp ≠ .setPwmBits n := by
  have hheld : s.resizeHeld = false ↔ ∀ n, s.hostOp ≠ .setPwmBits n := by
    cases hop : s.hostOp <;> simp [State.resizeHeld, hop]
  simp [State.frameStartEnabled, State.live, hout, ← hheld]

/-- Settles O35: a frame starts where it is enabled, and elsewhere the turn does nothing. -/
theorem frameStartSamplesThePlaneCount : Obligations.FrameStartSamplesThePlaneCount := by
  intro s hio hout htask
  have hen := frameStartEnabled_iff hout
  rw [scanStep_between hio hout htask]
  refine ⟨fun hwhy hfree => ?_, fun hnot => ?_, fun n hn => ?_⟩
  · rw [if_pos (hen.2 ⟨hwhy, hfree⟩)]
    rfl
  · rw [if_neg fun h => hnot (hen.1 h).1]
  · rw [if_neg fun h => (hen.1 h).2 n hn]

/-! ### The steps of a pass -/

section
variable {s : State} (hio : s.io = .ready) (hin : s.pos.inFrame = true)
include hio hin

theorem scanStep_shiftLo (hphase : s.pos.phase = .shiftLo) (hk : s.pos.k < 11) (hr : s.pos.r < s.cfg.doubleRows)
    (hc : s.pos.c < s.cfg.cols) :
    scanStep s = .next
      ((s.writeOutput (s.cell s.pos.k s.pos.r s.pos.c &&& s.cfg.layout.rgbMask ||| s.ctl false false s.cfg.oeOff)).setPos
        (s.pos.latch (s.cell s.pos.k s.pos.r s.pos.c &&& s.cfg.layout.rgbMask))) := by
  simp only [scanStep_inFrame hio hin, scanInFrame, hphase, scanShiftLo]
  exact accessCell_of_lt (lt_fbWords (Nat.le_refl 11) (addr_lt_planes hk hr hc)) _

theorem scanStep_shiftHi (hphase : s.pos.phase = .shiftHi) : scanStep s = .next (scanShiftHi s) := by
  rw [scanStep_inFrame hio hin, scanInFrame, hphase]

theorem scanStep_strobeHi (hphase : s.pos.phase = .strobeHi) : scanStep s = .next (scanStrobeHi s) := by
  rw [scanStep_inFrame hio hin, scanInFrame, hphase]

theorem scanStep_strobeLo (hphase : s.pos.phase = .strobeLo) : scanStep s = .next (scanStrobeLo s) := by
  rw [scanStep_inFrame hio hin, scanInFrame, hphase]

theorem scanStep_oeAssert (hphase : s.pos.phase = .oeAssert) : scanStep s = .next (scanOeAssert s) := by
  rw [scanStep_inFrame hio hin, scanInFrame, hphase]

theorem scanStep_dwell (hphase : s.pos.phase = .dwell) : scanStep s = .next (scanDwell s) := by
  rw [scanStep_inFrame hio hin, scanInFrame, hphase]

theorem scanStep_oeRelease (hphase : s.pos.phase = .oeRelease) : scanStep s = .next (scanOeRelease s) := by
  rw [scanStep_inFrame hio hin, scanInFrame, hphase]

end

/-- The clock pulse of a column that is not the last one moves on to the next column (R185). -/
theorem Pos.afterClock_of_lt {q : Pos} {cols : Nat} (h : q.c + 1 < cols) :
    q.afterClock cols = { q with c := q.c + 1, phase := .shiftLo } := if_pos h

theorem Pos.afterClock_last {q : Pos} {cols : Nat} (h : cols ≤ q.c + 1) :
    q.afterClock cols = { q with phase := .strobeHi } := if_neg (Nat.not_lt.2 h)

/-- After a pass comes the next plane, then the next row, then the end (R190). -/
theorem Pos.afterPass_plane {q : Pos} (h : q.k + 1 < q.pFrame.toNat) (rows : Nat) :
    q.afterPass rows = { q with c := 0, phase := .shiftLo, k := q.k + 1 } := if_pos h

theorem Pos.afterPass_row {q : Pos} {rows : Nat} (hk : q.pFrame.toNat ≤ q.k + 1) (hr : q.r + 1 < rows) :
    q.afterPass rows = { q with c := 0, phase := .shiftLo, k := 0, r := q.r + 1 } := by
  rw [Pos.afterPass, if_neg (Nat.not_lt.2 hk), if_pos hr]

theorem Pos.afterPass_end {q : Pos} {rows : Nat} (hk : q.pFrame.toNat ≤ q.k + 1) (hr : rows ≤ q.r + 1) :
    q.afterPass rows = { q with c := 0, phase := .shiftLo, k := 0, r := 0, inFrame := false, frameReq := false } := by
  rw [Pos.afterPass, if_neg (Nat.not_lt.2 hk), if_neg (Nat.not_lt.2 hr)]

/-- Settles O36: one framebuffer read serves both writes of a column, which end in the next column or the strobe. -/
theorem columnStepsWriteTheMaskedCellTwice : Obligations.ColumnStepsWriteTheMaskedCellTwice := by
  intro s hio hin hk hr hc
  refine ⟨fun hphase cur w hcur hw => ?_, fun hphase w hw => ⟨fun hlast => ?_, fun hmore => ?_⟩⟩
  · rw [scanStep_shiftLo hio hin hphase hk hr hc, hw, hcur]
    rfl
  · rw [scanStep_shiftHi hio hin hphase, hw, scanShiftHi, Pos.afterClock_last (Nat.le_of_eq hlast.symm)]
    rfl
  · rw [scanStep_shiftHi hio hin hphase, hw, scanShiftHi, Pos.afterClock_of_lt hmore]
    rfl

/-- Settles O37: three steps, each one write and the next phase. -/
theorem strobePulsesAndOutputEnableOpens : Obligations.StrobePulsesAndOutputEnableOpens := by
  intro s w hio hin
  refine ⟨fun hphase hw => ?_, fun hphase hw => ?_, fun hphase hw => ?_⟩ <;> rw [hw]
  · exact scanStep_strobeHi hio hin hphase
  · exact scanStep_strobeLo hio hin hphase
  · exact scanStep_oeAssert hio hin hphase

/-- Settles O38: the step reads the brightness register and loads the product. -/
theorem dwellIsBinaryWeighted : Obligations.DwellIsBinaryWeighted := by
  rintro s hio hin hphase _ rfl
  exact scanStep_dwell hio hin hphase

/-- Settles O39: after the release the position is the next plane's, the next row's or the end's. -/
theorem releaseAdvancesThePass : Obligations.ReleaseAdvancesThePass := by
  intro s w hio hin hphase hw
  rw [scanStep_oeRelease hio hin hphase, hw, scanOeRelease]
  refine ⟨fun hk => ?_, fun hk hr => ?_, fun hk hr => ?_⟩
  · rw [Pos.afterPass_plane hk]
    rfl
  · rw [Pos.afterPass_row hk hr]
    rfl
  · rw [Pos.afterPass_end hk hr]
    rfl

end Machine
end Sys2Proof
end

section
/-! PROOFS. A frame as a whole: from any of its positions SCAN streams what is left of R181's sequence, and the frame ends
(`42_scanout.md` sections 1 to 3, R181, R191, R192; `45_task_control.md`, R246 to R252). -/

namespace Sys2Proof
namespace Machine

/-! ### What is left of a frame -/

/-- The numbers from i up to n are i and the numbers after it. -/
theorem range'_rest {i n : Nat} (h : i < n) : List.range' i (n - i) = i :: List.range' (i + 1) (n - (i + 1)) := by
  rw [show n - i = n - (i + 1) + 1 by omega, List.range'_succ]

/-- The events of a pass from column col on (R181). -/
def columnsRest (c : Config) (fb : Memory) (br r k col : Nat) : List Event :=
  (List.range' col (c.cols - col)).flatMap (columnEvents c fb r k) ++ passTail c br r k

/-- The events left of the pass the position stands in. -/
def State.passRest (s : State) : List Event :=
  match s.pos.phase with
  | .shiftLo => columnsRest s.cfg s.fb s.brightness.toNat s.pos.r s.pos.k s.pos.c
  | .shiftHi => .write (s.pos.cur ||| s.ctl true false s.cfg.oeOff) ::
      columnsRest s.cfg s.fb s.brightness.toNat s.pos.r s.pos.k (s.pos.c + 1)
  | .strobeHi => passTail s.cfg s.brightness.toNat s.pos.r s.pos.k
  | .strobeLo => (passTail s.cfg s.brightness.toNat s.pos.r s.pos.k).drop 1
  | .oeAssert => (passTail s.cfg s.brightness.toNat s.pos.r s.pos.k).drop 2
  | .dwell => (passTail s.cfg s.brightness.toNat s.pos.r s.pos.k).drop 3
  | .oeRelease => (passTail s.cfg s.brightness.toNat s.pos.r s.pos.k).drop 4

/-- The passes of row r from plane k on, of p planes. -/
def planesRest (c : Config) (fb : Memory) (br p r k : Nat) : List Event :=
  (List.range' k (p - k)).flatMap (passEvents c fb br r)

/-- The rows from row r on, of p planes. -/
def rowsRest (c : Config) (fb : Memory) (br p r : Nat) : List Event :=
  (List.range' r (c.doubleRows - r)).flatMap fun r => planesRest c fb br p r 0

/-- The events left of the frame the position stands in. -/
def State.frameRest (s : State) : List Event :=
  s.passRest ++ (planesRest s.cfg s.fb s.brightness.toNat s.pos.pFrame.toNat s.pos.r (s.pos.k + 1) ++
    rowsRest s.cfg s.fb s.brightness.toNat s.pos.pFrame.toNat (s.pos.r + 1))

theorem passEvents_eq (c : Config) (fb : Memory) (br r k : Nat) : passEvents c fb br r k = columnsRest c fb br r k 0 := by
  rw [passEvents, columnsRest, List.range_eq_range', Nat.sub_zero]

theorem columnsRest_of_lt {c : Config} {col : Nat} (h : col < c.cols) (fb : Memory) (br r k : Nat) :
    columnsRest c fb br r k col = columnEvents c fb r k col ++ columnsRest c fb br r k (col + 1) := by
  rw [columnsRest, range'_rest h, List.flatMap_cons, List.append_assoc]
  rfl

theorem columnsRest_end {c : Config} {col : Nat} (h : c.cols ≤ col) (fb : Memory) (br r k : Nat) :
    columnsRest c fb br r k col = passTail c br r k := by
  rw [columnsRest, Nat.sub_eq_zero_of_le h]
  rfl

theorem planesRest_of_lt {p k : Nat} (h : k < p) (c : Config) (fb : Memory) (br r : Nat) :
    planesRest c fb br p r k = passEvents c fb br r k ++ planesRest c fb br p r (k + 1) := by
  rw [planesRest, range'_rest h, List.flatMap_cons]
  rfl

theorem planesRest_end {p k : Nat} (h : p ≤ k) (c : Config) (fb : Memory) (br r : Nat) :
    planesRest c fb br p r k = [] := by
  rw [planesRest, Nat.sub_eq_zero_of_le h]
  rfl

theorem rowsRest_of_lt {c : Config} {r : Nat} (h : r < c.doubleRows) (fb : Memory) (br p : Nat) :
    rowsRest c fb br p r = planesRest c fb br p r 0 ++ rowsRest c fb br p (r + 1) := by
  rw [rowsRest, range'_rest h, List.flatMap_cons]
  rfl

theorem rowsRest_end {c : Config} {r : Nat} (h : c.doubleRows ≤ r) (fb : Memory) (br p : Nat) :
    rowsRest c fb br p r = [] := by
  rw [rowsRest, Nat.sub_eq_zero_of_le h]
  rfl

theorem frameEvents_eq (c : Config) (fb : Memory) (br p : Nat) : frameEvents c fb br p = rowsRest c fb br p 0 := by
  simp only [frameEvents, rowsRest, planesRest, List.range_eq_range', Nat.sub_zero]

/-- At the start of a frame the whole sequence is left (R181, R183). -/
theorem frameRest_frameStart {s : State} (hrows : 0 < s.cfg.doubleRows) (hplanes : 0 < s.pwmBits.toNat) :
    (scanFrameStart s).frameRest = frameEvents s.cfg s.fb s.brightness.toNat s.pwmBits.toNat := by
  rw [frameEvents_eq, rowsRest_of_lt hrows, planesRest_of_lt hplanes, passEvents_eq, List.append_assoc]
  rfl

/-! ### One step of a frame -/

/-- From s to t SCAN has made the output events es, oldest first, and nothing else has changed but the position (R181). -/
def Streamed (s t : State) (es : List Event) : Prop :=
  ∃ q w d, t = { s with pos := q, outputReg := w, dwellTimer := d, trace := es.reverse ++ s.trace }

theorem Streamed.trans {s t u : State} {es fs : List Event} (h : Streamed s t es) (h' : Streamed t u fs) :
    Streamed s u (es ++ fs) := by
  obtain ⟨_, _, _, rfl⟩ := h
  obtain ⟨q, w, d, rfl⟩ := h'
  exact ⟨q, w, d, by rw [List.reverse_append, List.append_assoc]⟩

/-- The registers SCAN does not write in a frame (R182). -/
theorem Streamed.same {s t : State} {es : List Event} (h : Streamed s t es) :
    t.cfg = s.cfg ∧ t.io = s.io ∧ t.task = s.task ∧ t.hostOp = s.hostOp ∧ t.results = s.results := by
  obtain ⟨_, _, _, rfl⟩ := h
  exact ⟨rfl, rfl, rfl, rfl, rfl⟩

/-- The step of a frame streams the first event left: the frame goes on with the others, or it was the last. -/
def StreamsOne (s t : State) : Prop :=
  ∃ e, Streamed s t [e] ∧
    ((t.pos.inFrame = true ∧ s.frameRest = e :: t.frameRest) ∨
      (t.pos.inFrame = false ∧ t.pos.frameReq = false ∧ s.frameRest = [e] ∧
        e = .write (s.cfg.layout.ctl s.pos.r false false s.cfg.oeOff)))

theorem streamsOne_of_scanStep {s : State} (hinv : BlockInv s) (hio : s.io = .ready) (hin : s.pos.inFrame = true) :
    ∃ t, scanStep s = .next t ∧ StreamsOne s t := by
  obtain ⟨hr, hk, hc, -, -, hframe⟩ := hinv.pos
  obtain ⟨hkp, -⟩ := hframe hin
  cases hphase : s.pos.phase
  case shiftLo =>
    refine ⟨_, scanStep_shiftLo hio hin hphase hk hr hc, _, ⟨_, _, _, rfl⟩, .inl ⟨hin, ?_⟩⟩
    simp only [State.frameRest, State.passRest, hphase, columnsRest_of_lt hc]
    rfl
  case shiftHi =>
    refine ⟨_, scanStep_shiftHi hio hin hphase, _, ⟨_, _, _, rfl⟩, .inl ?_⟩
    simp only [scanShiftHi, State.setPos_pos, State.frameRest, State.passRest, hphase]
    rcases Nat.lt_or_ge (s.pos.c + 1) s.cfg.cols with hmore | hlast
    · rw [Pos.afterClock_of_lt hmore]
      exact ⟨hin, rfl⟩
    · rw [Pos.afterClock_last hlast, columnsRest_end hlast]
      exact ⟨hin, rfl⟩
  case strobeHi =>
    refine ⟨_, scanStep_strobeHi hio hin hphase, _, ⟨_, _, _, rfl⟩, .inl ⟨hin, ?_⟩⟩
    simp only [State.frameRest, State.passRest, hphase]
    rfl
  case strobeLo =>
    refine ⟨_, scanStep_strobeLo hio hin hphase, _, ⟨_, _, _, rfl⟩, .inl ⟨hin, ?_⟩⟩
    simp only [State.frameRest, State.passRest, hphase]
    rfl
  case oeAssert =>
    refine ⟨_, scanStep_oeAssert hio hin hphase, _, ⟨_, _, _, rfl⟩, .inl ⟨hin, ?_⟩⟩
    simp only [State.frameRest, State.passRest, hphase]
    rfl
  case dwell =>
    refine ⟨_, scanStep_dwell hio hin hphase, _, ⟨_, _, _, rfl⟩, .inl ⟨hin, ?_⟩⟩
    simp only [State.frameRest, State.passRest, hphase]
    rfl
  case oeRelease =>
    refine ⟨_, scanStep_oeRelease hio hin hphase, _, ⟨_, _, _, rfl⟩, ?_⟩
    simp only [scanOeRelease, State.setPos_pos, State.frameRest, State.passRest, hphase]
    rcases Nat.lt_or_ge (s.pos.k + 1) s.pos.pFrame.toNat with hplane | hplane
    · rw [Pos.afterPass_plane hplane, planesRest_of_lt hplane, passEvents_eq]
      refine .inl ⟨hin, ?_⟩
      simp only [List.append_assoc]
      rfl
    · rcases Nat.lt_or_ge (s.pos.r + 1) s.cfg.doubleRows with hrow | hrow
      · rw [Pos.afterPass_row hplane hrow, planesRest_end hplane, rowsRest_of_lt hrow,
          planesRest_of_lt (Nat.zero_lt_of_lt hkp), passEvents_eq]
        refine .inl ⟨hin, ?_⟩
        simp only [List.append_assoc]
        rfl
      · rw [Pos.afterPass_end hplane hrow, planesRest_end hplane, rowsRest_end hrow]
        exact .inr ⟨rfl, rfl, rfl, rfl⟩

/-! ### Counts over a sequence of events -/

/-- A count of events that adds up over a sequence. -/
structure CountsEvents (f : List Event → Nat) : Prop where
  nil : f [] = 0
  append : ∀ es fs, f (es ++ fs) = f es + f fs

theorem CountsEvents.flatMap {f : List Event → Nat} (hf : CountsEvents f) {g : Nat → List Event} {m : Nat}
    (h : ∀ i, f (g i) = m) (l : List Nat) : f (l.flatMap g) = l.length * m := by
  induction l with
  | nil => simp [hf.nil]
  | cons i l ih => rw [List.flatMap_cons, hf.append, ih, h, List.length_cons, Nat.succ_mul, Nat.add_comm]

theorem countsEvents_length : CountsEvents List.length := ⟨rfl, fun _ _ => List.length_append⟩

theorem length_columnsRest (c : Config) (fb : Memory) (br r k col : Nat) :
    (columnsRest c fb br r k col).length = (c.cols - col) * 2 + 5 := by
  have hcolumn : ∀ col, (columnEvents c fb r k col).length = 2 := fun _ => rfl
  rw [columnsRest, List.length_append, countsEvents_length.flatMap hcolumn, List.length_range']
  rfl

theorem length_passEvents (c : Config) (fb : Memory) (br r k : Nat) :
    (passEvents c fb br r k).length = 2 * c.cols + 5 := by
  rw [passEvents_eq, length_columnsRest, Nat.sub_zero, Nat.mul_comm]

theorem length_planesRest (c : Config) (fb : Memory) (br p r k : Nat) :
    (planesRest c fb br p r k).length = (p - k) * (2 * c.cols + 5) := by
  rw [planesRest, countsEvents_length.flatMap (length_passEvents c fb br r), List.length_range']

theorem length_rowsRest (c : Config) (fb : Memory) (br p r : Nat) :
    (rowsRest c fb br p r).length = (c.doubleRows - r) * (p * (2 * c.cols + 5)) := by
  rw [rowsRest, countsEvents_length.flatMap (fun r => length_planesRest c fb br p r 0), List.length_range', Nat.sub_zero]

/-- One frame takes `frameSteps` events (R191). -/
theorem length_frameEvents (c : Config) (fb : Memory) (br p : Nat) :
    (frameEvents c fb br p).length = frameSteps c p := by
  rw [frameEvents_eq, length_rowsRest, Nat.sub_zero, frameSteps, Nat.mul_assoc]

/-- What is left of a pass is no more than a pass. -/
theorem length_passRest_le {s : State} (hc : s.pos.c < s.cfg.cols) : s.passRest.length ≤ 2 * s.cfg.cols + 5 := by
  have htail : (passTail s.cfg s.brightness.toNat s.pos.r s.pos.k).length = 5 := rfl
  unfold State.passRest
  cases s.pos.phase <;> simp only [length_columnsRest, List.length_cons, List.length_drop, htail] <;> omega

/-- What is left of a frame is no more than a frame. -/
theorem length_frameRest_le {s : State} (hpos : PosOk s) (hin : s.pos.inFrame = true) :
    s.frameRest.length ≤ frameSteps s.cfg s.pos.pFrame.toNat := by
  obtain ⟨hr, -, hc, -, -, hframe⟩ := hpos
  obtain ⟨hk, -⟩ := hframe hin
  rw [State.frameRest, List.length_append, List.length_append, length_planesRest, length_rowsRest, frameSteps]
  generalize s.pos.pFrame.toNat = p at *
  calc _ ≤ (2 * s.cfg.cols + 5) + ((p - (s.pos.k + 1)) * (2 * s.cfg.cols + 5) +
          (s.cfg.doubleRows - (s.pos.r + 1)) * (p * (2 * s.cfg.cols + 5))) :=
        Nat.add_le_add_right (length_passRest_le hc) _
    _ = (1 + (p - (s.pos.k + 1))) * (2 * s.cfg.cols + 5) +
          (s.cfg.doubleRows - (s.pos.r + 1)) * (p * (2 * s.cfg.cols + 5)) := by ring
    _ ≤ p * (2 * s.cfg.cols + 5) + (s.cfg.doubleRows - (s.pos.r + 1)) * (p * (2 * s.cfg.cols + 5)) :=
        Nat.add_le_add_right (Nat.mul_le_mul_right _ (by omega)) _
    _ = (1 + (s.cfg.doubleRows - (s.pos.r + 1))) * (p * (2 * s.cfg.cols + 5)) := by ring
    _ ≤ s.cfg.doubleRows * (p * (2 * s.cfg.cols + 5)) := Nat.mul_le_mul_right _ (by omega)
    _ = _ := by ring

/-! ### The run of a frame -/

/-- SCAN's steps lead from s, in a frame, to t behind the frame's end, with the events left of the frame (R181, R191). -/
structure EndsFrame (s t : State) : Prop where
  run : iterate scanStep s.frameRest.length s = .next t
  streamed : Streamed s t s.frameRest
  out : t.pos.inFrame = false
  served : t.pos.frameReq = false
  released : ∃ r, r < s.cfg.doubleRows ∧ t.trace.head? = some (.write (s.cfg.layout.ctl r false false s.cfg.oeOff))

theorem blockInv_of_scanStep {s t : State} (hinv : BlockInv s) (h : scanStep s = .next t) : BlockInv t :=
  blockInv_of_scanMove hinv (scanMove_of_scanStep h)

/-- Every frame ends, whatever its position (R191), by induction on the events left. -/
theorem exists_endsFrame {s : State} (hinv : BlockInv s) (hio : s.io = .ready) (hin : s.pos.inFrame = true) :
    ∃ t, EndsFrame s t := by
  generalize hes : s.frameRest = es
  induction es generalizing s with
  | nil =>
    obtain ⟨t, -, e, -, ⟨-, hrest⟩ | ⟨-, -, hrest, -⟩⟩ := streamsOne_of_scanStep hinv hio hin <;> simp [hes] at hrest
  | cons e' es ih =>
    obtain ⟨t, hstep, e, hone, ⟨hint, hrest⟩ | ⟨hout, hserved, hrest, he⟩⟩ := streamsOne_of_scanStep hinv hio hin
    · obtain ⟨-, hes'⟩ : e = e' ∧ t.frameRest = es := by simpa [hes] using hrest.symm
      have hinvt := blockInv_of_scanStep hinv hstep
      obtain ⟨hcfg, hiot, -⟩ := hone.same
      obtain ⟨u, hrun, hstreamed, hout, hserved, hreleased⟩ := ih hinvt (hiot.trans hio) hint hes'
      refine ⟨u, ?_, ?_, hout, hserved, hcfg ▸ hreleased⟩
      · rw [hrest, List.length_cons, iterate_succ hstep, hrun]
      · rw [hrest]
        exact hone.trans hstreamed
    · refine ⟨t, ?_, hrest ▸ hone, hout, hserved, s.pos.r, hinv.pos.row, ?_⟩
      · rw [hrest, List.length_singleton, iterate_succ hstep, iterate_zero]
      · obtain ⟨_, _, _, rfl⟩ := hone
        rw [he]
        rfl

/-- Settles O43: a step of a frame streams one event, and no more than a frame's events are left of it. -/
theorem framesAlwaysEnd : Obligations.FramesAlwaysEnd := by
  intro s hinv hio hin
  obtain ⟨t, hstep, e, ⟨_, _, _, rfl⟩, -⟩ := streamsOne_of_scanStep hinv hio hin
  obtain ⟨u, hu⟩ := exists_endsFrame hinv hio hin
  exact ⟨⟨_, e, hstep, rfl⟩, _, u, length_frameRest_le hinv.pos hin, hu.run, hu.out⟩

/-! ### The run of a frame from its start -/

/-- A frame that starts streams R181's sequence whole. -/
theorem exists_frame_run {s : State} (hinv : BlockInv s) (hio : s.io = .ready) (hout : s.pos.inFrame = false)
    (htask : s.task ≠ .stopping) (hen : s.frameStartEnabled = true) :
    ∃ t, iterate scanStep (1 + frameSteps s.cfg s.pwmBits.toNat) s = .next t ∧
      Streamed s t (frameEvents s.cfg s.fb s.brightness.toNat s.pwmBits.toNat) ∧
      t.pos.inFrame = false ∧ t.pos.frameReq = false := by
  have hstart : scanStep s = .next (scanFrameStart s) := by rw [scanStep_between hio hout htask, if_pos hen]
  have hrest := frameRest_frameStart (Config.cols_pos hinv.params).2 hinv.planes.1
  obtain ⟨t, hrun, hstreamed, hend, hserved, -⟩ :=
    exists_endsFrame (s := scanFrameStart s) (blockInv_of_scanStep hinv hstart) hio rfl
  refine ⟨t, ?_, ?_, hend, hserved⟩
  · rw [Nat.add_comm, iterate_succ hstart, ← length_frameEvents s.cfg s.fb s.brightness.toNat, ← hrest, hrun]
  · obtain ⟨q, w, d, rfl⟩ := hstreamed
    exact ⟨q, w, d, by rw [← hrest]; rfl⟩

theorem outputTrace_of_streamed {s t : State} {es : List Event} (h : Streamed s t es) :
    t.outputTrace = s.outputTrace ++ es := by
  obtain ⟨_, _, _, rfl⟩ := h
  simp [State.outputTrace]

/-- Settles O40: the frame starts at its first position, and from there the whole sequence is left. -/
theorem frameRealisesTheSequence : Obligations.FrameRealisesTheSequence := by
  intro s hinv hio hout htask hen
  obtain ⟨t, hrun, hstreamed, hend, hserved⟩ := exists_frame_run hinv hio hout htask hen
  refine ⟨t, hrun, outputTrace_of_streamed hstreamed, hend, hserved, ?_⟩
  obtain ⟨_, _, _, rfl⟩ := hstreamed
  rfl

/-- Settles O44: the request enables one frame, whose end serves it. -/
theorem directUpdateScreenStreamsOneFrame : Obligations.DirectUpdateScreenStreamsOneFrame := by
  refine ⟨fun s => exec_updateScreen_refused, fun s hinv hadm => ?_⟩
  have ⟨⟨hio, _⟩, hupdate, _⟩ := hadm
  obtain ⟨htask, hout⟩ := hupdate rfl
  have htaken : exec .updateScreen s = .next ((s.setPos s.pos.request).hold .waitFrame) := exec_of_admitted hadm
  have hnot : s.task ≠ .stopping := by rcases htask with ht | ht <;> simp [ht]
  have hen : ((s.setPos s.pos.request).hold .waitFrame).frameStartEnabled = true :=
    (frameStartEnabled_iff (s := (s.setPos s.pos.request).hold .waitFrame) hout).2 ⟨.inr rfl, nofun⟩
  obtain ⟨u, hrun, hstreamed, hend, hserved⟩ := exists_frame_run (hinv.request htask hout) hio hout hnot hen
  have hevents := outputTrace_of_streamed hstreamed
  refine ⟨_, u, htaken, rfl, rfl, hrun, hevents, hend, ?_⟩
  obtain ⟨q, w, d, rfl⟩ := hstreamed
  have hdone : q.frameReq = false := hserved
  refine ⟨?_, rfl, rfl, rfl, rfl⟩
  simp [hostStep, State.complete, hdone]

/-! ### The task -/

/-- Settles O45: with the flag set and no frame in progress SCAN has a frame to start. -/
theorem startSetsTheLivenessFlag : Obligations.StartSetsTheLivenessFlag := by
  intro s hport
  refine ⟨fun htask => ?_, exec_start_refused hport⟩
  have htaken : exec .start s = .next ((s.setTask .running).complete .ok) :=
    exec_of_admitted (i := .start) ⟨hport, nofun, fun _ => htask, nofun⟩
  have hsame : (s.setTask .running).complete .ok = { s with task := .running, results := .ok :: s.results } :=
    State.complete_of_idle (s := s.setTask .running) hport.2 .ok
  refine ⟨_, htaken, hsame, rfl, fun hout => ?_⟩
  have hen : ((s.setTask .running).complete .ok).frameStartEnabled = true :=
    (frameStartEnabled_iff (s := (s.setTask .running).complete .ok) hout).2 ⟨.inl rfl, nofun⟩
  simp [State.scanReady, hen, hport.1]

/-- A STOP is taken where the task runs: the flag is cleared and the port waits (R248). -/
theorem exec_stop {s : State} (hport : PortFree s) (htask : s.task = .running) :
    exec .stop s = .next { s with task := .stopping, hostOp := .waitJoin } :=
  exec_of_admitted (i := .stop) ⟨hport, nofun, nofun, fun _ => htask⟩

/-- Between frames SCAN confirms the termination of a stopping task without an output event (R249). -/
theorem scanStep_confirm {s : State} (hio : s.io = .ready) (hout : s.pos.inFrame = false) (htask : s.task = .stopping) :
    scanStep s = .next { s with task := .joined } := by
  simp [scanStep, State.scanReady, hio, hout, htask, scanConfirm, State.setTask]

/-- The waiting STOP returns once the task has joined (R248). -/
theorem hostStep_joined {s : State} (hop : s.hostOp = .waitJoin) (htask : s.task = .joined) {res : List Result}
    (hres : s.results = res) : hostStep s = .next { s with hostOp := .idle, results := .ok :: res } := by
  simp [hostStep, hop, htask, State.complete, hres]

/-- Settles O46: the three turns of a STOP between frames. -/
theorem stopBetweenFramesJoinsAtOnce : Obligations.StopBetweenFramesJoinsAtOnce := by
  intro s hport
  refine ⟨fun htask => ⟨_, exec_stop hport htask, rfl, rfl, rfl, fun hout => ⟨?_, ?_⟩⟩, exec_stop_refused hport⟩
  · exact scanStep_confirm (s := { s with task := .stopping, hostOp := .waitJoin }) hport.1 hout rfl
  · exact hostStep_joined (s := { s with task := .joined, hostOp := .waitJoin }) rfl rfl rfl

/-- Settles O47: SCAN ends the frame in progress, if there is one, and confirms at its next step. -/
theorem stopReturnsWithinOneFrame : Obligations.StopReturnsWithinOneFrame := by
  intro s hinv hport htask
  obtain ⟨hreq, -⟩ := hinv.quiet (by simp [hport.2]) (by simp [hport.2])
  have hinvt : BlockInv { s with task := .stopping, hostOp := .waitJoin } := hinv.stop hreq
  cases hin : s.pos.inFrame with
  | false =>
    have hconfirm := scanStep_confirm (s := { s with task := .stopping, hostOp := .waitJoin }) hport.1 hin rfl
    exact ⟨_, 1, _, exec_stop hport htask, Nat.le_add_left 1 _, iterate_succ hconfirm 0, rfl, hin,
      hostStep_joined rfl rfl rfl, fun _ => ⟨rfl, rfl⟩, nofun⟩
  | true =>
    obtain ⟨t, hrun, hstreamed, hout, -, hreleased⟩ := exists_endsFrame hinvt hport.1 hin
    obtain ⟨-, hio, hstopping, hop, hresults⟩ := hstreamed.same
    have hconfirm := scanStep_confirm (hio.trans hport.1) hout hstopping
    have hjoined := hostStep_joined (s := { t with task := .joined }) hop rfl hresults
    exact ⟨_, _ + 1, _, exec_stop hport htask, Nat.add_le_add_right (length_frameRest_le hinvt.pos hin) 1,
      (iterate_add hrun 1).trans (iterate_succ hconfirm 0), rfl, hout, hjoined, nofun, fun _ => hreleased⟩

end Machine
end Sys2Proof
end

section
/-! PROOFS. A frame's events counted, and the light they make (`42_scanout.md` section 3, R193, R194). -/

namespace Sys2Proof
namespace Machine

/-! ### The bits of an output word -/

/-- The named signals of a control part (R99). -/
def ctlSignals (rr : Nat) (clk stb oe : Bool) : Signals :=
  { outputEnable := oe.toNat, clock := clk.toNat, strobe := stb.toNat, row := rr }

/-- The control part is the encoding of its four signals, every other field 0 (R99, R131). -/
theorem ctl_eq_encodeSignals (L : Layout) (rr : Nat) (clk stb oe : Bool) :
    L.ctl rr clk stb oe = L.encodeSignals (ctlSignals rr clk stb oe) := by
  have h := outputWordsAreEncodedSignals L false false false false false false clk stb oe rr
  simpa [Layout.t1, Layout.t2, bitWord, ctlSignals] using h

/-- The word SCAN writes in a column of the pass of row r: the colour bits of the cell word w and a control part (R184). -/
def outputWord (L : Layout) (w : Word) (r : Nat) (clk stb oe : Bool) : Word := w &&& L.rgbMask ||| L.ctl r clk stb oe

/-- A field of the triplets (R90). -/
def IsColour (f : WordField) : Prop := f ∈ [.r1, .g1, .b1, .r2, .g2, .b2]

section
variable {L : Layout} (hL : L.wf = true) {f : WordField} (w : Word) (r : Nat) (clk stb oe : Bool)
include hL

theorem getLsbD_rgbMask_of_colour (hf : IsColour f) {i : Nat} (hi : i ∈ L.bits f) : L.rgbMask.getLsbD i = true :=
  getLsbD_rgbMask_iff.2 ⟨f, hf, lt_32_of_mem_bits hL hi, hi⟩

theorem getLsbD_rgbMask_of_not_colour (hf : ¬ IsColour f) {i : Nat} (hi : i ∈ L.bits f) : L.rgbMask.getLsbD i = false := by
  by_contra hbit
  obtain ⟨g, hg, -, hig⟩ := getLsbD_rgbMask_iff.1 (Bool.not_eq_false _ ▸ hbit)
  exact Layout.wf_disjoint hL (fun hgf : g = f => hf (hgf ▸ hg)) hig hi

/-- In the triplets an output word has the bits of its cell. -/
theorem getLsbD_outputWord_of_colour (hf : IsColour f) {i : Nat} (hi : i ∈ L.bits f) :
    (outputWord L w r clk stb oe).getLsbD i = w.getLsbD i := by
  have hzero : (ctlSignals r clk stb oe).get f = 0 := by
    revert hf
    cases f <;> simp [IsColour, ctlSignals, Signals.get]
  have htrunc : f.truncate 0 = 0 := truncate_natCast (Nat.two_pow_pos _)
  rw [outputWord, BitVec.getLsbD_or, BitVec.getLsbD_and, getLsbD_rgbMask_of_colour hL hf hi, ctl_eq_encodeSignals,
    getLsbD_encodeSignals_of_mem hL _ hi, hzero, htrunc, Nat.zero_testBit, Bool.and_true, Bool.or_false]

/-- Outside the triplets an output word has the bits of its control part. -/
theorem getLsbD_outputWord_of_not_colour (hf : ¬ IsColour f) {i : Nat} (hi : i ∈ L.bits f) :
    (outputWord L w r clk stb oe).getLsbD i =
      (f.truncate ((ctlSignals r clk stb oe).get f)).testBit (i - L.pos f) := by
  rw [outputWord, BitVec.getLsbD_or, BitVec.getLsbD_and, getLsbD_rgbMask_of_not_colour hL hf hi, Bool.and_false,
    Bool.false_or, ctl_eq_encodeSignals, getLsbD_encodeSignals_of_mem hL _ hi]

/-- A one-bit control field of an output word is its signal. -/
theorem getLsbD_outputWord_pos (hf : ¬ IsColour f) (hwidth : f.width = 1) {b : Bool}
    (hb : (ctlSignals r clk stb oe).get f = b.toNat) : (outputWord L w r clk stb oe).getLsbD (L.pos f) = b := by
  have hmem : L.pos f ∈ L.bits f := Layout.mem_bits.2 ⟨Nat.le_refl _, by omega⟩
  have htrunc : f.truncate b.toNat = b.toNat := truncate_natCast (by rw [hwidth]; exact b.toNat_lt)
  rw [getLsbD_outputWord_of_not_colour hL w r clk stb oe hf hmem, hb, htrunc, Nat.sub_self]
  cases b <;> rfl

theorem outputWord_clock : (outputWord L w r clk stb oe).getLsbD L.clock = clk :=
  getLsbD_outputWord_pos (f := .clock) hL w r clk stb oe (by simp [IsColour]) rfl rfl

theorem outputWord_strobe : (outputWord L w r clk stb oe).getLsbD L.strobe = stb :=
  getLsbD_outputWord_pos (f := .strobe) hL w r clk stb oe (by simp [IsColour]) rfl rfl

theorem outputWord_outputEnable : (outputWord L w r clk stb oe).getLsbD L.outputEnable = oe :=
  getLsbD_outputWord_pos (f := .outputEnable) hL w r clk stb oe (by simp [IsColour]) rfl rfl

/-- The row field of an output word is the row address, truncated (R99). -/
theorem outputWord_row : L.getField (outputWord L w r clk stb oe) .row = r % 16 := by
  have htrunc : WordField.row.truncate r = r % 16 := by
    rw [WordField.truncate, ← Int.natCast_mod, Int.toNat_natCast]
    rfl
  rw [← htrunc]
  exact getField_eq_of_bits (WordField.truncate_lt _ _) fun i hi =>
    getLsbD_outputWord_of_not_colour hL w r clk stb oe (by simp [IsColour]) hi

end

/-- A control word alone is an output word without colour (R186 to R190). -/
theorem ctl_eq_outputWord (L : Layout) (r : Nat) (clk stb oe : Bool) : L.ctl r clk stb oe = outputWord L 0#32 r clk stb oe := by
  rw [outputWord, BitVec.zero_and, BitVec.zero_or]

/-! ### Counts -/

theorem writesOf_append (es fs : List Event) : writesOf (es ++ fs) = writesOf es ++ writesOf fs := List.filterMap_append

theorem dwellsOf_append (es fs : List Event) : dwellsOf (es ++ fs) = dwellsOf es ++ dwellsOf fs := List.filterMap_append

/-- The words of a column. -/
theorem writesOf_columnEvents (c : Config) (fb : Memory) (r k col : Nat) :
    writesOf (columnEvents c fb r k col) =
      [outputWord c.layout (fb.read (c.addr k r col)) r false false c.oeOff,
       outputWord c.layout (fb.read (c.addr k r col)) r true false c.oeOff] := rfl

/-- The words that end a pass. -/
theorem writesOf_passTail (c : Config) (br r k : Nat) :
    writesOf (passTail c br r k) =
      [outputWord c.layout 0#32 r false true c.oeOff, outputWord c.layout 0#32 r false false c.oeOff,
       outputWord c.layout 0#32 r false false c.oeOn, outputWord c.layout 0#32 r false false c.oeOff] := by
  simp only [← ctl_eq_outputWord]
  rfl

/-- A count that is the same for every column and for every end of a pass, over a frame (R193). -/
theorem CountsEvents.frameEvents {f : List Event → Nat} (hf : CountsEvents f) {c : Config} {fb : Memory} {br col tail : Nat}
    (hcol : ∀ r k i, f (columnEvents c fb r k i) = col) (htail : ∀ r k, f (passTail c br r k) = tail) (p : Nat) :
    f (frameEvents c fb br p) = c.doubleRows * p * (c.cols * col + tail) := by
  have hpass (r k : Nat) : f (passEvents c fb br r k) = c.cols * col + tail := by
    rw [passEvents, hf.append, hf.flatMap (hcol r k), htail, List.length_range]
  have hrow (r : Nat) : f ((List.range p).flatMap fun k => passEvents c fb br r k) = p * (c.cols * col + tail) := by
    rw [hf.flatMap (hpass r), List.length_range]
  rw [Machine.frameEvents, hf.flatMap hrow, List.length_range, Nat.mul_assoc]

theorem countsEvents_writes : CountsEvents fun es => (writesOf es).length :=
  ⟨rfl, fun es fs => by rw [writesOf_append, List.length_append]⟩

theorem countsEvents_dwells : CountsEvents fun es => (dwellsOf es).length :=
  ⟨rfl, fun es fs => by rw [dwellsOf_append, List.length_append]⟩

theorem countsEvents_ticks : CountsEvents fun es => (dwellsOf es).sum :=
  ⟨rfl, fun es fs => by rw [dwellsOf_append, List.sum_append]⟩

theorem countsEvents_countP (pred : Word → Bool) : CountsEvents fun es => (writesOf es).countP pred :=
  ⟨rfl, fun es fs => by rw [writesOf_append, List.countP_append]⟩

/-- The dwells of the planes of a row double from plane to plane (R189). -/
theorem sum_dwellsOf_planes (c : Config) (fb : Memory) (br r p : Nat) :
    (dwellsOf ((List.range p).flatMap fun k => passEvents c fb br r k)).sum = c.dwellUnit * br * (2 ^ p - 1) := by
  have hpass (k : Nat) : (dwellsOf (passEvents c fb br r k)).sum = c.dwellUnit * br * 2 ^ k := by
    rw [passEvents, countsEvents_ticks.append, countsEvents_ticks.flatMap (m := 0) fun _ => rfl, Nat.mul_zero, Nat.zero_add]
    rfl
  induction p with
  | zero => simp [dwellsOf]
  | succ p ih =>
    have hpow : 2 ^ (p + 1) - 1 = 2 ^ p - 1 + 2 ^ p := by
      have := Nat.two_pow_pos p
      omega
    rw [List.range_succ, List.flatMap_append, countsEvents_ticks.append, ih, List.flatMap_singleton, hpass, ← Nat.mul_add,
      hpow]

/-- Settles O41: every count adds up over the frame's columns and ends of passes. -/
theorem frameCounts : Obligations.FrameCounts := by
  intro c fb br p
  refine ⟨?_, ?_, length_frameEvents c fb br p, ?_, fun hL => ⟨?_, ?_, ?_⟩⟩
  · rw [countsEvents_writes.frameEvents (col := 2) (tail := 4) (fun _ _ _ => rfl) (fun _ _ => rfl) p]
    ring
  · rw [countsEvents_dwells.frameEvents (col := 0) (tail := 1) (fun _ _ _ => rfl) (fun _ _ => rfl) p]
    ring
  · rw [frameEvents, countsEvents_ticks.flatMap fun r => sum_dwellsOf_planes c fb br r p, List.length_range]
  · rw [(countsEvents_countP _).frameEvents (col := 1) (tail := 0) ?_ ?_ p]
    · ring
    · intro r k i
      simp [writesOf_columnEvents, outputWord_clock hL]
    · intro r k
      simp [writesOf_passTail, outputWord_clock hL]
  · rw [(countsEvents_countP _).frameEvents (col := 0) (tail := 1) ?_ ?_ p]
    · ring
    · intro r k i
      simp [writesOf_columnEvents, outputWord_strobe hL]
    · intro r k
      simp [writesOf_passTail, outputWord_strobe hL]
  · rw [(countsEvents_countP _).frameEvents (col := 0) (tail := 1) ?_ ?_ p]
    · ring
    · intro r k i
      simp [writesOf_columnEvents, outputWord_outputEnable hL, Config.oeOff]
    · intro r k
      simp [writesOf_passTail, outputWord_outputEnable hL, Config.oeOff]

/-! ### The panel over a pass -/

/-- Events without a dwell light nothing. -/
theorem litTicks_of_no_dwell (c : Config) (r col bit : Nat) {es : List Event} (h : dwellsOf es = []) (q : Panel) :
    litTicks c r col bit q es = 0 := by
  induction es generalizing q with
  | nil => rfl
  | cons e es ih =>
    cases e with
    | write w => exact ih h _
    | dwell d => exact absurd h (List.cons_ne_nil _ _)

/-- The word clocked in for a column (R185). -/
def clockedWord (c : Config) (fb : Memory) (r k col : Nat) : Word :=
  outputWord c.layout (fb.read (c.addr k r col)) r true false c.oeOff

section
variable {c : Config} (hL : c.layout.wf = true) (fb : Memory) (r k : Nat)
include hL

/-- A column clocks in its word, whatever the panel showed: its first write has the clock low (R184, R185). -/
theorem panel_columnEvents (q : Panel) (col : Nat) :
    ((columnEvents c fb r k col).foldl (Panel.next c) q).shifted = clockedWord c fb r k col :: q.shifted ∧
      ((columnEvents c fb r k col).foldl (Panel.next c) q).shown = clockedWord c fb r k col := by
  have hcolumn : columnEvents c fb r k col =
      [.write (outputWord c.layout (fb.read (c.addr k r col)) r false false c.oeOff), .write (clockedWord c fb r k col)] := rfl
  have hclock : (clockedWord c fb r k col).getLsbD c.layout.clock = true := outputWord_clock hL ..
  simp [hcolumn, Panel.next, Panel.raises, outputWord_clock hL, hclock]

/-- After n columns their words are clocked in, the newest first, and the strobe is low. -/
theorem panel_columns (q : Panel) (n : Nat) :
    (((List.range n).flatMap (columnEvents c fb r k)).foldl (Panel.next c) q).shifted =
        ((List.range n).map (clockedWord c fb r k)).reverse ++ q.shifted ∧
      (0 < n → (((List.range n).flatMap (columnEvents c fb r k)).foldl (Panel.next c) q).shown.getLsbD c.layout.strobe =
        false) := by
  induction n with
  | zero => exact ⟨rfl, nofun⟩
  | succ n ih =>
    obtain ⟨hshifted, -⟩ := ih
    rw [List.range_succ, List.flatMap_append, List.flatMap_singleton, List.foldl_append]
    obtain ⟨hshifted', hshown'⟩ := panel_columnEvents hL fb r k _ n
    refine ⟨?_, fun _ => ?_⟩
    · rw [hshifted', hshifted, List.map_append, List.reverse_append]
      rfl
    · rw [hshown']
      exact outputWord_strobe hL ..

/-- The end of a pass latches the last C words clocked in and lights them for the dwell in row r (R186 to R190). -/
theorem litTicks_passTail {q : Panel} (hq : q.shown.getLsbD c.layout.strobe = false) (br row col bit : Nat) :
    litTicks c row col bit q (passTail c br r k) =
      if r % 16 = row ∧ ((q.shifted.take c.cols).reverse.getD col 0#32).getLsbD bit = true then c.dwellUnit * br * 2 ^ k
      else 0 := by
  simp [passTail, ctl_eq_outputWord, litTicks, Panel.next, Panel.raises, Panel.lights, outputWord_strobe hL,
    outputWord_outputEnable hL, outputWord_row hL, hq]

/-- A pass lights a column of its row for its dwell exactly where the cell has the bit, from whatever panel (R194). -/
theorem litTicks_passEvents {f : WordField} (hf : IsColour f) (hr : r < 16) {col : Nat} (hcol : col < c.cols)
    (q : Panel) (br row : Nat) :
    litTicks c row col (c.layout.pos f) q (passEvents c fb br r k) =
      if r = row ∧ (fb.read (c.addr k r col)).getLsbD (c.layout.pos f) = true then c.dwellUnit * br * 2 ^ k else 0 := by
  obtain ⟨hshifted, hstrobe⟩ := panel_columns hL fb r k q c.cols
  have hdark : dwellsOf ((List.range c.cols).flatMap (columnEvents c fb r k)) = [] := by
    have hcount := countsEvents_dwells.flatMap (g := columnEvents c fb r k) (m := 0) (fun _ => rfl) (List.range c.cols)
    exact List.length_eq_zero_iff.1 hcount
  have hmem : c.layout.pos f ∈ c.layout.bits f := by
    have hwidth : 0 < f.width := by cases f <;> decide
    exact Layout.mem_bits.2 ⟨Nat.le_refl _, by omega⟩
  have hbit : (clockedWord c fb r k col).getLsbD (c.layout.pos f) = (fb.read (c.addr k r col)).getLsbD (c.layout.pos f) :=
    getLsbD_outputWord_of_colour hL _ _ _ _ _ hf hmem
  have hlatched : (((List.range c.cols).map (clockedWord c fb r k)).reverse ++ q.shifted).take c.cols =
      ((List.range c.cols).map (clockedWord c fb r k)).reverse := List.take_left' (by simp)
  rw [passEvents, litTicks_append, litTicks_of_no_dwell c row col _ hdark, Nat.zero_add,
    litTicks_passTail hL r k (hstrobe (Nat.zero_lt_of_lt hcol)), hshifted, hlatched, List.reverse_reverse,
    Nat.mod_eq_of_lt hr]
  simp [List.getD_eq_getElem?_getD, hcol, hbit]

end

/-! ### The panel over a frame -/

/-- The lit time of parts that each light the same from whatever panel is their sum. -/
theorem litTicks_flatMap {c : Config} {r col bit : Nat} {g : Nat → List Event} {m : Nat → Nat} {l : List Nat}
    (h : ∀ i ∈ l, ∀ q, litTicks c r col bit q (g i) = m i) (q : Panel) :
    litTicks c r col bit q (l.flatMap g) = (l.map m).sum := by
  induction l generalizing q with
  | nil => rfl
  | cons i l ih =>
    rw [List.flatMap_cons, litTicks_append, h i List.mem_cons_self, ih fun j hj => h j (List.mem_cons_of_mem i hj)]
    rfl

/-- A sum with one term. -/
theorem sum_range_single {n i : Nat} (h : i < n) (x : Nat) :
    ((List.range n).map fun j => if j = i then x else 0).sum = x := by
  change ∑ j ∈ Finset.range n, (if j = i then x else 0) = x
  rw [Finset.sum_ite_eq', if_pos (Finset.mem_range.2 h)]

/-- Over a frame a bit of a column is lit for the dwells of the planes that have it, and these are the weights of the channel's
level (R194). -/
theorem litTicks_frameEvents {c : Config} (hwf : c.wf = true) {f : WordField} (hf : IsColour f) {p row col : Nat} (h1 : 1 ≤ p)
    (h11 : p ≤ 11) (hrow : row < c.doubleRows) (hcol : col < c.cols) {fb : Memory} {v : Byte}
    (hbits : ∀ k, k < p → (fb.read (c.addr k row col)).getLsbD (c.layout.pos f) = c.planeBit v p k) (br : Nat) (q : Panel) :
    litTicks c row col (c.layout.pos f) q (frameEvents c fb br p) =
      c.dwellUnit * br * c.ramp.apply (c.channelMap v) p := by
  obtain ⟨-, -, -, h16, hL, -, hramp, -⟩ := Config.wf_iff hwf
  have hlevel : reconstructed c v p = c.ramp.apply (c.channelMap v) p := reconstructed_eq_apply hramp h1 h11 v
  have hplanes (r : Nat) (hr : r ∈ List.range c.doubleRows) (q : Panel) :
      litTicks c row col (c.layout.pos f) q ((List.range p).flatMap fun k => passEvents c fb br r k) =
        if r = row then c.dwellUnit * br * reconstructed c v p else 0 := by
    have hr16 : r < 16 := Nat.lt_of_lt_of_le (List.mem_range.1 hr) h16
    rw [litTicks_flatMap fun k _ q => litTicks_passEvents hL fb r k hf hr16 hcol q br row]
    split
    · next hrr =>
      subst hrr
      rw [reconstructed, ← List.sum_map_mul_left]
      congr 1
      apply List.map_congr_left
      intro k hk
      simp [hbits k (List.mem_range.1 hk)]
    · next hrr => simp [hrr]
  rw [frameEvents, litTicks_flatMap hplanes, sum_range_single hrow, hlevel]

/-- Settles O42: the three bits of a drawn pixel are its channels' plane bits, and each is lit as its level says. -/
theorem litTimeIsTheChannelLevel : Obligations.LitTimeIsTheChannelLevel := by
  intro c fb br p x y r g b q hwf h1 h11 hx hy hdrawn
  have hlit {f : WordField} (hf : IsColour f) {v : Byte} (hbits : ∀ k, k < p →
      (fb.read (pixelCell c k x y)).getLsbD (c.layout.pos f) = c.planeBit v p k) :=
    litTicks_frameEvents hwf hf h1 h11 (mod_lt_rows hy) hx hbits br q
  by_cases hup : y < c.doubleRows
  · simp only [planeBits, if_pos hup, Prod.mk.injEq] at hdrawn ⊢
    exact ⟨hlit (f := .r1) (by simp [IsColour]) fun k hk => (hdrawn k hk).1,
      hlit (f := .g1) (by simp [IsColour]) fun k hk => (hdrawn k hk).2.1,
      hlit (f := .b1) (by simp [IsColour]) fun k hk => (hdrawn k hk).2.2⟩
  · simp only [planeBits, if_neg hup, Prod.mk.injEq] at hdrawn ⊢
    exact ⟨hlit (f := .r2) (by simp [IsColour]) fun k hk => (hdrawn k hk).1,
      hlit (f := .g2) (by simp [IsColour]) fun k hk => (hdrawn k hk).2.1,
      hlit (f := .b2) (by simp [IsColour]) fun k hk => (hdrawn k hk).2.2⟩

end Machine
end Sys2Proof
end
